-- ==== Sys2Proof/Word.lean ====
section
/-! DEFINITION. The machine's words and their widths (spec/00_scope.md R5, R7): every value is unsigned, bit 0 is the
least significant bit. -/

namespace Sys2Proof

/-- An 8-bit value: a general register, a memory cell, a framebuffer cell, a timer, the literal `NN` (R5, R51). -/
abbrev Byte := BitVec 8

/-- A 16-bit value: `I`, `PC`, `SP`, an instruction word, a stack word (R5, R50). -/
abbrev Word := BitVec 16

/-- The 12-bit literal `NNN` (R51). -/
abbrev Addr12 := BitVec 12

/-- A register number: it always comes from a 4-bit field, so it is always in 0..15 (10_state.md R10). -/
abbrev Reg := Fin 16

/-- A key number, one of the key symbols 0..F (10_state.md R19). -/
abbrev Key := Fin 16

end Sys2Proof
end

