-- ==== Sys2Proof/Syntax.lean ====
section
/-! DEFINITION. The syntax: one constructor per row of spec/opcode_table.json, in the table's order (30_encoding.md R62). -/

namespace Sys2Proof

/-- An instruction. `x` and `y` are register numbers, `nn` a byte literal, `nnn` an address literal, `n` a row count
(30_encoding.md R51, R53). The row count is a number the machine only counts with, so it is a `Nat`, and
WellFormed.lean checks that its 4-bit field can hold it. -/
inductive Instr where
  /-- 00E0 `CLS` (43_display.md R110) -/
  | cls
  /-- 00EE `RET` (40_control_flow.md R71) -/
  | ret
  /-- 1NNN `JP nnn` (R72) -/
  | jp (nnn : Addr12)
  /-- 2NNN `CALL nnn` (R73) -/
  | call (nnn : Addr12)
  /-- 3XNN `SEB Vx, nn` (R74) -/
  | seb (x : Reg) (nn : Byte)
  /-- 4XNN `SNEB Vx, nn` (R75) -/
  | sneb (x : Reg) (nn : Byte)
  /-- 5XY0 `SE Vx, Vy` (R76) -/
  | se (x y : Reg)
  /-- 6XNN `LDB Vx, nn` (41_alu.md R80) -/
  | ldb (x : Reg) (nn : Byte)
  /-- 7XNN `ADDB Vx, nn` (R81) -/
  | addb (x : Reg) (nn : Byte)
  /-- 8XY0 `MOV Vx, Vy` (R82) -/
  | mov (x y : Reg)
  /-- 8XY1 `OR Vx, Vy` (R83) -/
  | or (x y : Reg)
  /-- 8XY2 `AND Vx, Vy` (R84) -/
  | and (x y : Reg)
  /-- 8XY3 `XOR Vx, Vy` (R85) -/
  | xor (x y : Reg)
  /-- 8XY4 `ADD Vx, Vy` (R86) -/
  | add (x y : Reg)
  /-- 8XY5 `SUB Vx, Vy` (R87) -/
  | sub (x y : Reg)
  /-- 8XY6 `SHR Vx` (R88): `y` is in the word and ignored (30_encoding.md R58) -/
  | shr (x y : Reg)
  /-- 8XY7 `SUBN Vx, Vy` (R89) -/
  | subn (x y : Reg)
  /-- 8XYE `SHL Vx` (R90): `y` is in the word and ignored (30_encoding.md R58) -/
  | shl (x y : Reg)
  /-- 9XY0 `SNE Vx, Vy` (40_control_flow.md R77) -/
  | sne (x y : Reg)
  /-- ANNN `MVI nnn` (42_index_memory.md R100) -/
  | mvi (nnn : Addr12)
  /-- BNNN `MVI0 nnn` (R101): it writes `I` and does not jump -/
  | mvi0 (nnn : Addr12)
  /-- CXNN `RND Vx, nn` (41_alu.md R92) -/
  | rnd (x : Reg) (nn : Byte)
  /-- DXYN `DRW Vx, Vy, n` (43_display.md R111) -/
  | drw (x y : Reg) (n : Nat)
  /-- EX9E `SKP Vx` (44_keypad_timers.md R115) -/
  | skp (x : Reg)
  /-- EXA1 `SKNP Vx` (R116) -/
  | sknp (x : Reg)
  /-- FX07 `GDT Vx` (R117) -/
  | gdt (x : Reg)
  /-- FX0A `KEY Vx` (R118) -/
  | key (x : Reg)
  /-- FX15 `SDT Vx` (R119) -/
  | sdt (x : Reg)
  /-- FX18 `SST Vx` (R120) -/
  | sst (x : Reg)
  /-- FX1E `ADI Vx` (42_index_memory.md R102) -/
  | adi (x : Reg)
  /-- FX29 `FNT Vx` (R103) -/
  | fnt (x : Reg)
  /-- FX33 `BCD Vx` (R104) -/
  | bcd (x : Reg)
  /-- FX55 `STR Vx` (R105) -/
  | str (x : Reg)
  /-- FX65 `LDR Vx` (R106) -/
  | ldr (x : Reg)
  deriving DecidableEq, Repr

end Sys2Proof
end

