-- ==== Sys2Proof/WellFormed.lean ====
section
/-! DEFINITION. Which terms of `Instr` are instructions of the machine: the operands fit their fields
(30_encoding.md R51, R53). Register numbers and the literals `NN` and `NNN` fit by their types; the row count of DXYN is
the one operand that needs a check. -/

namespace Sys2Proof

/-- The row count `N` of DXYN is a 4-bit literal, 0..15 (R53). Every other instruction is well formed as it stands. -/
def Instr.wellFormed : Instr → Bool
  | .cls => true
  | .ret => true
  | .jp _ => true
  | .call _ => true
  | .seb _ _ => true
  | .sneb _ _ => true
  | .se _ _ => true
  | .ldb _ _ => true
  | .addb _ _ => true
  | .mov _ _ => true
  | .or _ _ => true
  | .and _ _ => true
  | .xor _ _ => true
  | .add _ _ => true
  | .sub _ _ => true
  | .shr _ _ => true
  | .subn _ _ => true
  | .shl _ _ => true
  | .sne _ _ => true
  | .mvi _ => true
  | .mvi0 _ => true
  | .rnd _ _ => true
  | .drw _ _ n => decide (n < 16)
  | .skp _ => true
  | .sknp _ => true
  | .gdt _ => true
  | .key _ => true
  | .sdt _ => true
  | .sst _ => true
  | .adi _ => true
  | .fnt _ => true
  | .bcd _ => true
  | .str _ => true
  | .ldr _ => true

end Sys2Proof
end

