-- ==== Sys2Proof/Decode.lean ====
section
/-! DEFINITION. Decoding, total on any bytes and rejecting by name, then the encoder and the opcode table, each written
from 30_encoding.md: fields R51, formats R52, `Decode` R54, invalid words R56, the map R62. -/

namespace Sys2Proof

/-! ### Fields of an instruction word (R51) -/

/-- `G`, `w[15:12]`: the instruction group. -/
def opG (w : Word) : Nat := (w.extractLsb' 12 4).toNat

/-- `X`, `w[11:8]`: the first register operand. -/
def opX (w : Word) : Reg := (w.extractLsb' 8 4).toFin

/-- `Y`, `w[7:4]`: the second register operand. -/
def opY (w : Word) : Reg := (w.extractLsb' 4 4).toFin

/-- `N`, `w[3:0]`: the 4-bit literal, or the sub-code of group 8. -/
def opN (w : Word) : Nat := (w.extractLsb' 0 4).toNat

/-- `NN`, `w[7:0]`: the byte literal, or the sub-code of groups E and F. -/
def opNN (w : Word) : Byte := w.extractLsb' 0 8

/-- `NNN`, `w[11:0]`: the address literal. -/
def opNNN (w : Word) : Addr12 := w.extractLsb' 0 12

/-! ### Decoding a word (R54) -/

/-- Group 0 is matched on the whole word: every other `0NNN` is invalid (R54, R57). -/
def decodeGroup0 (w : Word) : Option Instr :=
  if w = 0x00E0#16 then some .cls
  else if w = 0x00EE#16 then some .ret
  else none

/-- Group 8 dispatches on the low nibble (R54). -/
def decodeGroup8 (w : Word) : Option Instr :=
  match opN w with
  | 0x0 => some (.mov (opX w) (opY w))
  | 0x1 => some (.or (opX w) (opY w))
  | 0x2 => some (.and (opX w) (opY w))
  | 0x3 => some (.xor (opX w) (opY w))
  | 0x4 => some (.add (opX w) (opY w))
  | 0x5 => some (.sub (opX w) (opY w))
  | 0x6 => some (.shr (opX w) (opY w))
  | 0x7 => some (.subn (opX w) (opY w))
  | 0xE => some (.shl (opX w) (opY w))
  | _ => none

/-- Group E dispatches on the low byte (R54). -/
def decodeGroupE (w : Word) : Option Instr :=
  match (opNN w).toNat with
  | 0x9E => some (.skp (opX w))
  | 0xA1 => some (.sknp (opX w))
  | _ => none

/-- Group F dispatches on the low byte (R54). -/
def decodeGroupF (w : Word) : Option Instr :=
  match (opNN w).toNat with
  | 0x07 => some (.gdt (opX w))
  | 0x0A => some (.key (opX w))
  | 0x15 => some (.sdt (opX w))
  | 0x18 => some (.sst (opX w))
  | 0x1E => some (.adi (opX w))
  | 0x29 => some (.fnt (opX w))
  | 0x33 => some (.bcd (opX w))
  | 0x55 => some (.str (opX w))
  | 0x65 => some (.ldr (opX w))
  | _ => none

/-- `Decode(w)` (R54): it reads the word and nothing else; `none` where the word is invalid. -/
def decodeWord (w : Word) : Option Instr :=
  match opG w with
  | 0x0 => decodeGroup0 w
  | 0x1 => some (.jp (opNNN w))
  | 0x2 => some (.call (opNNN w))
  | 0x3 => some (.seb (opX w) (opNN w))
  | 0x4 => some (.sneb (opX w) (opNN w))
  | 0x5 => if opN w = 0 then some (.se (opX w) (opY w)) else none
  | 0x6 => some (.ldb (opX w) (opNN w))
  | 0x7 => some (.addb (opX w) (opNN w))
  | 0x8 => decodeGroup8 w
  | 0x9 => if opN w = 0 then some (.sne (opX w) (opY w)) else none
  | 0xA => some (.mvi (opNNN w))
  | 0xB => some (.mvi0 (opNNN w))
  | 0xC => some (.rnd (opX w) (opNN w))
  | 0xD => some (.drw (opX w) (opY w) (opN w))
  | 0xE => decodeGroupE w
  | 0xF => decodeGroupF w
  | _ => none

/-! ### Bytes (20_memory.md R31, 30_encoding.md R50) -/

/-- The high byte of a word, which stands at the lower address (R31). -/
def hiByte (w : Word) : Byte := w.extractLsb' 8 8

/-- The low byte of a word, which stands at the higher address (R31). -/
def loByte (w : Word) : Byte := w.extractLsb' 0 8

/-- `mem[a] ++ mem[a+1]` (R33, R50). -/
def wordOfBytes (hi lo : Byte) : Word := hi ++ lo

/-- A word as its two bytes, the first at the lower address (R31). -/
def bytesOfWord (w : Word) : List Byte := [hiByte w, loByte w]

/-- Why bytes decode to no instruction. -/
inductive DecodeError where
  /-- fewer than the two bytes every instruction has (R50) -/
  | truncated
  /-- the word matches no row of the opcode map (R56) -/
  | invalidOpcode (w : Word)
  deriving DecidableEq, Repr

/-- The instruction at the front of a list of bytes, with the bytes after it (R50, R54, R59). -/
def decode : List Byte → Except DecodeError (Instr × List Byte)
  | hi :: lo :: rest =>
    match decodeWord (wordOfBytes hi lo) with
    | some i => .ok (i, rest)
    | none => .error (.invalidOpcode (wordOfBytes hi lo))
  | [_] => .error .truncated
  | [] => .error .truncated

/-! ### Encoding (R52, R62) -/

/-- A register number as its 4-bit field. -/
def regBits (x : Reg) : BitVec 4 := BitVec.ofFin x

/-- Format XNN: group, X, NN. -/
def encodeXNN (g : BitVec 4) (x : Reg) (nn : Byte) : Word := (g ++ regBits x) ++ nn

/-- Format NNN: group, NNN. -/
def encodeNNN (g : BitVec 4) (nnn : Addr12) : Word := g ++ nnn

/-- Formats XY and XYN: group, X, Y, then the sub-code or the literal N. -/
def encodeXYN (g : BitVec 4) (x y : Reg) (n : BitVec 4) : Word := (g ++ regBits x) ++ (regBits y ++ n)

/-- Format X: group, X, sub-code byte. -/
def encodeX (g : BitVec 4) (x : Reg) (sub : Byte) : Word := (g ++ regBits x) ++ sub

/-- The word of an instruction (R52, R62). -/
def encode : Instr → Word
  | .cls => 0x00E0#16
  | .ret => 0x00EE#16
  | .jp nnn => encodeNNN 0x1#4 nnn
  | .call nnn => encodeNNN 0x2#4 nnn
  | .seb x nn => encodeXNN 0x3#4 x nn
  | .sneb x nn => encodeXNN 0x4#4 x nn
  | .se x y => encodeXYN 0x5#4 x y 0x0#4
  | .ldb x nn => encodeXNN 0x6#4 x nn
  | .addb x nn => encodeXNN 0x7#4 x nn
  | .mov x y => encodeXYN 0x8#4 x y 0x0#4
  | .or x y => encodeXYN 0x8#4 x y 0x1#4
  | .and x y => encodeXYN 0x8#4 x y 0x2#4
  | .xor x y => encodeXYN 0x8#4 x y 0x3#4
  | .add x y => encodeXYN 0x8#4 x y 0x4#4
  | .sub x y => encodeXYN 0x8#4 x y 0x5#4
  | .shr x y => encodeXYN 0x8#4 x y 0x6#4
  | .subn x y => encodeXYN 0x8#4 x y 0x7#4
  | .shl x y => encodeXYN 0x8#4 x y 0xE#4
  | .sne x y => encodeXYN 0x9#4 x y 0x0#4
  | .mvi nnn => encodeNNN 0xA#4 nnn
  | .mvi0 nnn => encodeNNN 0xB#4 nnn
  | .rnd x nn => encodeXNN 0xC#4 x nn
  | .drw x y n => encodeXYN 0xD#4 x y (BitVec.ofNat 4 n)
  | .skp x => encodeX 0xE#4 x 0x9E#8
  | .sknp x => encodeX 0xE#4 x 0xA1#8
  | .gdt x => encodeX 0xF#4 x 0x07#8
  | .key x => encodeX 0xF#4 x 0x0A#8
  | .sdt x => encodeX 0xF#4 x 0x15#8
  | .sst x => encodeX 0xF#4 x 0x18#8
  | .adi x => encodeX 0xF#4 x 0x1E#8
  | .fnt x => encodeX 0xF#4 x 0x29#8
  | .bcd x => encodeX 0xF#4 x 0x33#8
  | .str x => encodeX 0xF#4 x 0x55#8
  | .ldr x => encodeX 0xF#4 x 0x65#8

/-- The bytes of an instruction in memory order (R31, R50). -/
def encodeBytes (i : Instr) : List Byte := bytesOfWord (encode i)

/-! ### The opcode map and the assembler's names (R60 to R62) -/

/-- A row of the opcode map: a word `w` belongs to it when `w AND mask == value` (R62). -/
structure OpcodeRow where
  mnemonic : String
  mask : Word
  value : Word
  deriving DecidableEq, Repr

/-- Whether a word belongs to a row (R62). -/
def OpcodeRow.selects (r : OpcodeRow) (w : Word) : Bool := w &&& r.mask == r.value

/-- The row of an instruction in the opcode map, mnemonic, mask and match value as the map has them (R62). -/
def opcodeRow : Instr → OpcodeRow
  | .cls => ⟨"CLS", 0xFFFF#16, 0x00E0#16⟩
  | .ret => ⟨"RET", 0xFFFF#16, 0x00EE#16⟩
  | .jp _ => ⟨"JP", 0xF000#16, 0x1000#16⟩
  | .call _ => ⟨"CALL", 0xF000#16, 0x2000#16⟩
  | .seb _ _ => ⟨"SEB", 0xF000#16, 0x3000#16⟩
  | .sneb _ _ => ⟨"SNEB", 0xF000#16, 0x4000#16⟩
  | .se _ _ => ⟨"SE", 0xF00F#16, 0x5000#16⟩
  | .ldb _ _ => ⟨"LDB", 0xF000#16, 0x6000#16⟩
  | .addb _ _ => ⟨"ADDB", 0xF000#16, 0x7000#16⟩
  | .mov _ _ => ⟨"MOV", 0xF00F#16, 0x8000#16⟩
  | .or _ _ => ⟨"OR", 0xF00F#16, 0x8001#16⟩
  | .and _ _ => ⟨"AND", 0xF00F#16, 0x8002#16⟩
  | .xor _ _ => ⟨"XOR", 0xF00F#16, 0x8003#16⟩
  | .add _ _ => ⟨"ADD", 0xF00F#16, 0x8004#16⟩
  | .sub _ _ => ⟨"SUB", 0xF00F#16, 0x8005#16⟩
  | .shr _ _ => ⟨"SHR", 0xF00F#16, 0x8006#16⟩
  | .subn _ _ => ⟨"SUBN", 0xF00F#16, 0x8007#16⟩
  | .shl _ _ => ⟨"SHL", 0xF00F#16, 0x800E#16⟩
  | .sne _ _ => ⟨"SNE", 0xF00F#16, 0x9000#16⟩
  | .mvi _ => ⟨"MVI", 0xF000#16, 0xA000#16⟩
  | .mvi0 _ => ⟨"MVI0", 0xF000#16, 0xB000#16⟩
  | .rnd _ _ => ⟨"RND", 0xF000#16, 0xC000#16⟩
  | .drw _ _ _ => ⟨"DRW", 0xF000#16, 0xD000#16⟩
  | .skp _ => ⟨"SKP", 0xF0FF#16, 0xE09E#16⟩
  | .sknp _ => ⟨"SKNP", 0xF0FF#16, 0xE0A1#16⟩
  | .gdt _ => ⟨"GDT", 0xF0FF#16, 0xF007#16⟩
  | .key _ => ⟨"KEY", 0xF0FF#16, 0xF00A#16⟩
  | .sdt _ => ⟨"SDT", 0xF0FF#16, 0xF015#16⟩
  | .sst _ => ⟨"SST", 0xF0FF#16, 0xF018#16⟩
  | .adi _ => ⟨"ADI", 0xF0FF#16, 0xF01E#16⟩
  | .fnt _ => ⟨"FNT", 0xF0FF#16, 0xF029#16⟩
  | .bcd _ => ⟨"BCD", 0xF0FF#16, 0xF033#16⟩
  | .str _ => ⟨"STR", 0xF0FF#16, 0xF055#16⟩
  | .ldr _ => ⟨"LDR", 0xF0FF#16, 0xF065#16⟩

/-- One instruction of each kind, in the order of the opcode map (R62). -/
def instrKinds : List Instr :=
  [.cls, .ret, .jp 0, .call 0, .seb 0 0, .sneb 0 0, .se 0 0, .ldb 0 0, .addb 0 0, .mov 0 0, .or 0 0, .and 0 0,
    .xor 0 0, .add 0 0, .sub 0 0, .shr 0 0, .subn 0 0] ++
  [.shl 0 0, .sne 0 0, .mvi 0, .mvi0 0, .rnd 0 0, .drw 0 0 0, .skp 0, .sknp 0, .gdt 0, .key 0, .sdt 0, .sst 0,
    .adi 0, .fnt 0, .bcd 0, .str 0, .ldr 0]

/-- The whole opcode map (R62). -/
def opcodeMap : List OpcodeRow := instrKinds.map opcodeRow

/-- What the assembler can write: `Y` is 0 in 8XY6 and 8XYE, whose syntax has no second operand (R61). -/
def Instr.asAssembled : Instr → Instr
  | .shr x _ => .shr x 0
  | .shl x _ => .shl x 0
  | i => i

/-- A hexadecimal digit, as the syntax writes registers and literals (R60). -/
def hexDigit (d : Nat) : String := String.singleton (Nat.digitChar d).toUpper

/-- The name of a register, `V0`..`VF` (R60). -/
def regName (x : Reg) : String := "V" ++ hexDigit x.val

/-- A literal in hexadecimal, with `k` digits after `0x` (R60). -/
def hexLiteral : Nat → Nat → String
  | k, v => "0x" ++ (List.range k).foldr (fun j acc => acc ++ hexDigit (v / 16 ^ j % 16)) ""

/-- The operands of an instruction in the assembler's syntax (R60, R62). -/
def operandText : Instr → List String
  | .cls => []
  | .ret => []
  | .jp nnn => [hexLiteral 3 nnn.toNat]
  | .call nnn => [hexLiteral 3 nnn.toNat]
  | .seb x nn => [regName x, hexLiteral 2 nn.toNat]
  | .sneb x nn => [regName x, hexLiteral 2 nn.toNat]
  | .se x y => [regName x, regName y]
  | .ldb x nn => [regName x, hexLiteral 2 nn.toNat]
  | .addb x nn => [regName x, hexLiteral 2 nn.toNat]
  | .mov x y => [regName x, regName y]
  | .or x y => [regName x, regName y]
  | .and x y => [regName x, regName y]
  | .xor x y => [regName x, regName y]
  | .add x y => [regName x, regName y]
  | .sub x y => [regName x, regName y]
  | .shr x _ => [regName x]
  | .subn x y => [regName x, regName y]
  | .shl x _ => [regName x]
  | .sne x y => [regName x, regName y]
  | .mvi nnn => [hexLiteral 3 nnn.toNat]
  | .mvi0 nnn => [hexLiteral 3 nnn.toNat]
  | .rnd x nn => [regName x, hexLiteral 2 nn.toNat]
  | .drw x y n => [regName x, regName y, hexLiteral 1 n]
  | .skp x => [regName x]
  | .sknp x => [regName x]
  | .gdt x => [regName x]
  | .key x => [regName x]
  | .sdt x => [regName x]
  | .sst x => [regName x]
  | .adi x => [regName x]
  | .fnt x => [regName x]
  | .bcd x => [regName x]
  | .str x => [regName x]
  | .ldr x => [regName x]

/-- One line of assembly: the mnemonic and its operands (R60, R62). -/
def asmText (i : Instr) : String :=
  match operandText i with
  | [] => (opcodeRow i).mnemonic
  | ops => (opcodeRow i).mnemonic ++ " " ++ ", ".intercalate ops

/-! ### The host's question about one row of the opcode table -/

/-- The instruction the decoder reads from a table row's bits `w`, of which `nbits` are given: the word is laid out as the
hardware stores it, high byte first (R31, R50), and decoded. Every row of the table has 16 bits. -/
def decodeTableWord (nbits w : Nat) : Option Instr :=
  match decode (bytesOfWord (BitVec.ofNat 16 (w % 2 ^ nbits))) with
  | .ok (i, _) => some i
  | .error _ => none

end Sys2Proof
end

