-- ==== Sys2Proof/Config.lean ====
section
/-! DEFINITION. What is fixed for the machine (spec/00_scope.md R5) and the one free value (41_alu.md R92).
The three open parameters of R6, `FONT`, `MAX_PROGRAM_BYTES` and `STACK_LIMIT`, are in Machine/Params.lean. -/

namespace Sys2Proof.Config

/-- Memory size in bytes: addresses 0x000..0xFFF (R5, 10_state.md R17). -/
def memBytes : Nat := 0x1000

/-- `PROGRAM_LOAD_ADDR` (R5). -/
def programLoadAddr : Nat := 0x200

/-- `STACK_BASE_ADDR`, the first stack slot (R5, 10_state.md R14). -/
def stackBaseAddr : Nat := 0xEFE

/-- Size of the font table, at address 0x000 (R5, 10_state.md R21). -/
def fontBytes : Nat := 80

/-- FREE VALUE. The answer of the port `random_byte()` at its n-th call: the environment's, under no law, one draw per
executed CXNN (41_alu.md R92, 92_eei_decisions.md D13). Assumption log 6: nothing in Lean can evaluate it. -/
opaque randomByte : Nat → Byte

end Sys2Proof.Config
end

