-- ==== Sys2Proof/Machine/Params.lean ====
section
/-! DEFINITION. The three parameters the source does not fix (spec/00_scope.md R6), at the spec's defaults. They stand
here, and not in Config.lean, so that a repair can mend a value that a test shows wrong. -/

namespace Sys2Proof.Config

/-- `FONT`: 80 bytes, digit `d` at `5 * d`. PRESUMED: the source gives no byte of it, and these are the conventional
font of the CHIP-8 family, the default of 10_state.md R21 (assumption log 2). -/
def font : List Byte :=
  [0xF0#8, 0x90#8, 0x90#8, 0x90#8, 0xF0#8] ++ [0x20#8, 0x60#8, 0x20#8, 0x20#8, 0x70#8] ++
  [0xF0#8, 0x10#8, 0xF0#8, 0x80#8, 0xF0#8] ++ [0xF0#8, 0x10#8, 0xF0#8, 0x10#8, 0xF0#8] ++
  [0x90#8, 0x90#8, 0xF0#8, 0x10#8, 0x10#8] ++ [0xF0#8, 0x80#8, 0xF0#8, 0x10#8, 0xF0#8] ++
  [0xF0#8, 0x80#8, 0xF0#8, 0x90#8, 0xF0#8] ++ [0xF0#8, 0x10#8, 0x20#8, 0x40#8, 0x40#8] ++
  [0xF0#8, 0x90#8, 0xF0#8, 0x90#8, 0xF0#8] ++ [0xF0#8, 0x90#8, 0xF0#8, 0x10#8, 0xF0#8] ++
  [0xF0#8, 0x90#8, 0xF0#8, 0x90#8, 0x90#8] ++ [0xE0#8, 0x90#8, 0xE0#8, 0x90#8, 0xE0#8] ++
  [0xF0#8, 0x80#8, 0x80#8, 0x80#8, 0xF0#8] ++ [0xE0#8, 0x90#8, 0x90#8, 0x90#8, 0xE0#8] ++
  [0xF0#8, 0x80#8, 0xF0#8, 0x80#8, 0xF0#8] ++ [0xF0#8, 0x80#8, 0xF0#8, 0x80#8, 0x80#8]

/-- `MAX_PROGRAM_BYTES`: DESIGN CHOICE, the spec's default of the two readings (R6, 90_conflicts.md C6; assumption
log 3). -/
def maxProgramBytes : Nat := 0xCA0

/-- `STACK_LIMIT`, the lowest address a push may write: DESIGN CHOICE, the spec's default (R6, 92_eei_decisions.md D5;
assumption log 4). -/
def stackLimit : Nat := 0xEA0

end Sys2Proof.Config
end

