-- ==== Sys2Proof/Machine/State.lean ====
section
/-! DEFINITION. The machine's state as plain data (spec/10_state.md), the reasons a step stops (60_exceptions.md R130), the
actions of its agents (00_scope.md R4) and the state right after reset (10_state.md R23). -/

namespace Sys2Proof.Machine

/-- The engine's mode (R15). -/
inductive Mode where
  | running
  | waitingForKey
  deriving DecidableEq, Repr

/-- The seven faults of the machine (60_exceptions.md R130), each with the value it records. A fault is the result of a
step that changed no state (R131): the run stops, so each is safe. The spec itself defines every one of them. -/
inductive Fault where
  /-- Code 1, raised by decode: the fetched word matches no row of the opcode map (30_encoding.md R56). Safe. -/
  | invalidOpcode (w : Word)
  /-- Code 2, raised by CALL: `SP < STACK_LIMIT` before the push (20_memory.md R40). Safe. -/
  | stackOverflow (sp : Word)
  /-- Code 3, raised by RET: `SP >= 0xEFE` before the pop (20_memory.md R41). Safe. -/
  | stackUnderflow (sp : Word)
  /-- Code 4, raised by FNT: `V[X] > 0x0F` (42_index_memory.md R103). Safe. -/
  | invalidSpriteDigit (d : Byte)
  /-- Code 5, raised by the fetch, BCD, STR, LDR and DRW with `N > 0`: a byte of the access lies above 0xFFF
  (20_memory.md R32). The address is a natural number, for `I + k` is not reduced (42_index_memory.md R107). Safe. -/
  | addressOutOfRange (addr : Nat)
  /-- Code 6, raised by DRW with `N > 0`: `V[X] > 63` (43_display.md R111). Safe. -/
  | framebufferOutOfRange (x : Byte)
  /-- Code 7, raised by SKP and SKNP: `V[X] > 0x0F` (44_keypad_timers.md R115, R116). Safe. -/
  | keyIndexOutOfRange (k : Byte)
  deriving DecidableEq, Repr

/-- Why the model gives no meaning. No instruction of this machine is refused: the one constructor is the dispatch's name
for an instruction without a meaning, and no arm uses it. Safe. -/
inductive Refusal where
  /-- Raised by nothing: every instruction of the opcode map has its meaning. Safe. -/
  | notModelled (mnemonic : String)
  deriving DecidableEq, Repr

/-- The actions of the machine's agents, each atomic, none overlapping another (00_scope.md R4). -/
inductive Action where
  /-- The engine's `step()` (30_encoding.md R55). -/
  | step
  /-- The host's `init()` (70_reset_and_hazards.md R160). -/
  | init
  /-- The host's `load_program(bytes)` (70_reset_and_hazards.md R162). -/
  | loadProgram (bytes : List Byte)
  /-- The host's read of the framebuffer (43_display.md R113). -/
  | framebuffer
  /-- The input layer's `notify_key_pressed(key)`; `key` is a 4-bit value (60_exceptions.md R145). -/
  | notifyKeyPressed (key : Key)
  /-- The input layer changes what `is_key_pressed(key)` answers (60_exceptions.md R147). -/
  | keyChange (key : Key) (pressed : Bool)
  /-- The timer device ticks the delay timer (60_exceptions.md R150). -/
  | tickDelay
  /-- The timer device ticks the sound timer (60_exceptions.md R150). -/
  | tickSound
  deriving DecidableEq, Repr

/-- Memory as the cells that differ from their reset contents, addresses strictly rising (R17; the canonical form is
`Memory.wf` in Machine/Ops.lean, and what an unlisted address reads as is `Memory.background` there). -/
abbrev Memory := List Host.Cell

/-- The framebuffer: 64 columns of 32 rows, the column first, one byte per cell (R18). -/
abbrev Framebuffer := Vector (Vector Byte 32) 64

/-- Everything the spec gives the machine (10_state.md), and two fields of the model's own, `draws` and `schedule`. -/
structure State where
  /-- `V0`..`VF` (R10); `VF` is `v[15]` (R11). -/
  v : Vector Byte 16
  /-- `I` (R12). -/
  i : Word
  /-- `PC` (R13). -/
  pc : Word
  /-- `SP` (R14). -/
  sp : Word
  /-- `mode` (R15). -/
  mode : Mode
  /-- The 4096 bytes of memory (R17), the call stack among them (20_memory.md R39). -/
  mem : Memory
  /-- `Frame[x][y]` (R18). -/
  frame : Framebuffer
  /-- The key state, owned by the input layer (R19). -/
  keys : Vector Bool 16
  /-- `DT`, the delay timer, in the timer device (R20). -/
  dt : Byte
  /-- `ST`, the sound timer, in the timer device (R20). -/
  st : Byte
  /-- The model's own: how many answers of `random_byte()` the engine has taken (assumption log 6). -/
  draws : Nat
  /-- The model's own: the actions still to come, the next first; where it is empty the engine steps (00_scope.md R4 fixes
  no order; assumption log 5). -/
  schedule : List Action
  deriving DecidableEq, Repr

/-- The machine right after `init` (R23, 70_reset_and_hazards.md R160). Memory lists nothing: an unlisted address reads as
its reset contents. `keys`, `draws` and `schedule` are DESIGN CHOICE (assumption logs 1, 6, 5): the spec gives none. -/
def State.reset : State where
  v := Vector.replicate 16 0#8
  i := 0x0000#16
  pc := 0x0200#16
  sp := 0x0EFE#16
  mode := .running
  mem := []
  frame := Vector.replicate 64 (Vector.replicate 32 0#8)
  keys := Vector.replicate 16 false
  dt := 0#8
  st := 0#8
  draws := 0
  schedule := []

end Sys2Proof.Machine
end

