-- ==== Sys2Proof/Machine/Ops.lean ====
section
/-! DEFINITION. The pseudocode primitives of spec/00_scope.md R8: memory (20_memory.md R32 to R34), registers
(10_state.md R10), the stack (R39 to R41), `Skip` (40_control_flow.md R70), the ports (60_exceptions.md R147, R151),
the framebuffer's cells (10_state.md R18), and raising a fault (60_exceptions.md R131). -/

namespace Sys2Proof.Machine

/-- What one step of this machine answers. -/
abbrev Result := Host.Outcome State Fault Refusal

/-! ### Memory as data (10_state.md R17, R23) -/

/-- What an address that is not listed reads as: the reset contents, `FONT` at 0x000..0x04F and 0 elsewhere (R23). -/
def Memory.background (a : Nat) : Byte := Config.font.getD a 0#8

/-- The byte of a cell. -/
def Memory.get : Memory → Nat → Byte
  | [], a => Memory.background a
  | (k, b) :: m, a => if k = a then b else Memory.get m a

/-- `(a, b)` in front of the cells above `a`, unless `b` is what `a` reads as when unlisted. -/
def Memory.put (m : Memory) (a : Nat) (b : Byte) : Memory :=
  if b = Memory.background a then m else (a, b) :: m

/-- Memory with `b` in cell `a`, in the canonical form. -/
def Memory.set : Memory → Nat → Byte → Memory
  | [], a, b => Memory.put [] a b
  | (k, c) :: m, a, b =>
    if a < k then Memory.put ((k, c) :: m) a b
    else if a = k then Memory.put m a b
    else (k, c) :: Memory.set m a b

/-- Memory with the bytes of a list in the cells from `a` on, in ascending order. -/
def Memory.setBytes : Memory → Nat → List Byte → Memory
  | m, _, [] => m
  | m, a, b :: bs => Memory.setBytes (m.set a b) (a + 1) bs

/-- The canonical form from address `lo` on. -/
def Memory.wfFrom : Nat → Memory → Bool
  | _, [] => true
  | lo, (a, b) :: m =>
    decide (lo ≤ a) && decide (a < Config.memBytes) && decide (b ≠ Memory.background a) && Memory.wfFrom (a + 1) m

/-- The canonical form: addresses strictly rising, every one in 0x000..0xFFF, no entry equal to what an unlisted address
reads as. Equal memories are then equal lists. -/
def Memory.wf (m : Memory) : Bool := Memory.wfFrom 0 m

/-! ### Faults (60_exceptions.md R130, R131)

Taking an exception on this machine is reporting it: control goes nowhere, nothing is saved, and every piece of state
keeps the value it had when the step began (R131). An outcome `.fault` carries no next state, and `act` in
Machine/Environment.lean gives the host the state unchanged. There is no return from a fault (R134). -/

/-- `raise <Fault>(info)` (R8, R131): the step ends with the fault and no state is changed. -/
def raise (f : Fault) : Result := .fault f

/-- The end of an instruction that may have raised a fault. -/
def finish : Except Fault State → Result
  | .ok s => .next s
  | .error f => raise f

/-- The numeric code of a fault (R130). -/
def Fault.code : Fault → Nat
  | .invalidOpcode _ => 1
  | .stackOverflow _ => 2
  | .stackUnderflow _ => 3
  | .invalidSpriteDigit _ => 4
  | .addressOutOfRange _ => 5
  | .framebufferOutOfRange _ => 6
  | .keyIndexOutOfRange _ => 7

/-- The value a fault records (R130). -/
def Fault.info : Fault → Nat
  | .invalidOpcode w => w.toNat
  | .stackOverflow sp => sp.toNat
  | .stackUnderflow sp => sp.toNat
  | .invalidSpriteDigit d => d.toNat
  | .addressOutOfRange a => a
  | .framebufferOutOfRange x => x.toNat
  | .keyIndexOutOfRange k => k.toNat

/-! ### Registers (10_state.md R10) -/

/-- `V[x]`. -/
def State.reg (s : State) (x : Reg) : Byte := s.v[x]

/-- `V[x] <- b`. -/
def State.setReg (s : State) (x : Reg) (b : Byte) : State := { s with v := s.v.set x b }

/-- `V[k] <- b`, then the next byte into the next register, in ascending order; a register number above 15 does not
exist. -/
def State.setRegsFrom : State → Nat → List Byte → State
  | s, _, [] => s
  | s, k, b :: bs =>
    State.setRegsFrom (if h : k < 16 then s.setReg ⟨k, h⟩ b else s) (k + 1) bs

/-! ### Memory accesses (20_memory.md R32 to R34) -/

/-- Whether an access of `n` bytes at `addr` is in range, on naturals with no wrap and no mask (R32). -/
def inRange (addr n : Nat) : Bool := decide (addr + n - 1 ≤ 0xFFF)

/-- `MemRead(addr, 1)` (R33). -/
def readByte (s : State) (addr : Nat) : Except Fault Byte :=
  if inRange addr 1 then .ok (s.mem.get addr) else .error (.addressOutOfRange addr)

/-- `MemRead(addr, 2)`, big-endian (R31, R33). -/
def readWord (s : State) (addr : Nat) : Except Fault Word :=
  if inRange addr 2 then .ok (wordOfBytes (s.mem.get addr) (s.mem.get (addr + 1)))
  else .error (.addressOutOfRange addr)

/-- `MemWrite(addr, 1, b)` (R34). -/
def writeByte (s : State) (addr : Nat) (b : Byte) : Except Fault State :=
  if inRange addr 1 then .ok { s with mem := s.mem.set addr b } else .error (.addressOutOfRange addr)

/-- `MemWrite(addr, 2, w)`, big-endian, both bytes checked before either is stored (R31, R34). -/
def writeWord (s : State) (addr : Nat) (w : Word) : Except Fault State :=
  if inRange addr 2 then .ok { s with mem := (s.mem.set addr (hiByte w)).set (addr + 1) (loByte w) }
  else .error (.addressOutOfRange addr)

/-- One-byte writes in ascending address order; the first out-of-range address is the one reported (R36,
60_exceptions.md R133). -/
def writeBytes : State → Nat → List Byte → Except Fault State
  | s, _, [] => .ok s
  | s, addr, b :: bs =>
    match writeByte s addr b with
    | .ok t => writeBytes t (addr + 1) bs
    | .error f => .error f

/-- `n` one-byte reads in ascending address order; the first out-of-range address is the one reported (R36,
60_exceptions.md R133). -/
def readBytes : State → Nat → Nat → Except Fault (List Byte)
  | _, _, 0 => .ok []
  | s, addr, n + 1 =>
    match readByte s addr with
    | .error f => .error f
    | .ok b =>
      match readBytes s (addr + 1) n with
      | .error f => .error f
      | .ok bs => .ok (b :: bs)

/-! ### The program counter (10_state.md R13, 40_control_flow.md R70) -/

/-- `PC <- trunc_16(PC + 2)`: the step's increment (30_encoding.md R55). -/
def advancePc (s : State) : State := { s with pc := s.pc + 2#16 }

/-- `Skip()`: past the next instruction, whatever its bytes are (40_control_flow.md R70). -/
def skip (s : State) : State := { s with pc := s.pc + 2#16 }

/-- A skip instruction with condition `c` (40_control_flow.md R70, R74 to R77). -/
def skipIf (c : Bool) (s : State) : State := if c then skip s else s

/-- `PC <- target` (40_control_flow.md R78). -/
def jumpTo (s : State) (target : Word) : State := { s with pc := target }

/-! ### The stack (20_memory.md R39 to R41) -/

/-- `Push(w)` (R40). -/
def push (s : State) (w : Word) : Except Fault State :=
  if s.sp.toNat < Config.stackLimit then .error (.stackOverflow s.sp)
  else
    match writeWord s s.sp.toNat w with
    | .ok t => .ok { t with sp := t.sp - 2#16 }
    | .error f => .error f

/-- `Pop()`: the popped word and the state after it (R41). The slot it reads keeps its bytes. -/
def pop (s : State) : Except Fault (Word × State) :=
  if Config.stackBaseAddr ≤ s.sp.toNat then .error (.stackUnderflow s.sp)
  else
    match readWord { s with sp := s.sp + 2#16 } (s.sp + 2#16).toNat with
    | .ok w => .ok (w, { s with sp := s.sp + 2#16 })
    | .error f => .error f

/-! ### The framebuffer's cells (10_state.md R18) -/

/-- `Frame[x][y]`. -/
def State.cell (s : State) (x : Fin 64) (y : Fin 32) : Byte := s.frame[x][y]

/-- `Frame[x][y] <- b`. -/
def State.setCell (s : State) (x : Fin 64) (y : Fin 32) (b : Byte) : State :=
  { s with frame := s.frame.set x (s.frame[x].set y b) }

/-- Every cell 0 (43_display.md R110). -/
def State.clearFrame (s : State) : State :=
  { s with frame := Vector.replicate 64 (Vector.replicate 32 0#8) }

/-! ### The ports (60_exceptions.md R147, R151, 41_alu.md R92) -/

/-- `KeyPressed(k)`: the Boolean of key `k` at this moment; it changes nothing (R147). -/
def keyPressed (s : State) (k : Key) : Bool := s.keys[k]

/-- `DelayGet()` (R151). -/
def delayGet (s : State) : Byte := s.dt

/-- `DelaySet(v)` (R151). -/
def delaySet (s : State) (b : Byte) : State := { s with dt := b }

/-- `SoundSet(v)` (R151). -/
def soundSet (s : State) (b : Byte) : State := { s with st := b }

/-- `RandomByte()`: the environment's next answer, and the state in which it has been taken (41_alu.md R92; assumption
log 6). -/
def randomByte (s : State) : Byte × State := (Config.randomByte s.draws, { s with draws := s.draws + 1 })

end Sys2Proof.Machine
end

