-- ==== Sys2Proof/Machine/Flags.lean ====
section
/-! DEFINITION. What the flag instructions compute (spec/10_state.md R11, 41_alu.md R86 to R91, 43_display.md R111). -/

namespace Sys2Proof.Machine

/-- `VF`, the flag and an ordinary register (10_state.md R11). -/
def vf : Reg := 15

/-- A flag value is 0 or 1 (R11). -/
def flagByte (c : Bool) : Byte := if c then 1#8 else 0#8

/-- The 9-bit sum of 8XY4 (41_alu.md R86). -/
def sum9 (a b : Byte) : BitVec 9 := a.setWidth 9 + b.setWidth 9

/-- The carry of 8XY4: bit 8 of the 9-bit sum (R86). -/
def carryOut (a b : Byte) : Bool := (sum9 a b).getLsbD 8

/-- The stored sum of 8XY4: the low 8 bits (R86). -/
def sumLow (a b : Byte) : Byte := (sum9 a b).extractLsb' 0 8

/-- The flag of a subtraction: minuend strictly greater than subtrahend, unsigned (R87, R89, R91). -/
def strictlyGreater (minuend subtrahend : Byte) : Bool := decide (minuend > subtrahend)

/-- The bit 8XY6 shifts out (R88). -/
def bit0 (a : Byte) : Bool := a.getLsbD 0

/-- The bit 8XYE shifts out (R90). -/
def bit7 (a : Byte) : Bool := a.getLsbD 7

/-- The collision test of DXYN on one cell: an unsigned comparison of the two bytes (43_display.md R111). -/
def collides (prev new : Byte) : Bool := decide (prev > new)

/-- `V[x] <- result`, then `VF <- flag`, last, so that the flag wins when `x` is 15 (10_state.md R11). -/
def setResultAndFlag (s : State) (x : Reg) (result : Byte) (flag : Bool) : State :=
  (s.setReg x result).setReg vf (flagByte flag)

end Sys2Proof.Machine
end

