-- ==== Sys2Proof/Machine/Alu.lean ====
section
/-! DEFINITION. Loads, arithmetic, logic, shifts and random: 6XNN, 7XNN, 8XY0 to 8XY7, 8XYE, CXNN (spec/41_alu.md). All
arithmetic is unsigned and modulo 256 (R91); operands are read before anything is written. -/

namespace Sys2Proof.Machine

/-- 6XNN `LDB Vx, nn` (R80). -/
def execLdb (x : Reg) (nn : Byte) (s : State) : Result := .next (s.setReg x nn)

/-- 7XNN `ADDB Vx, nn` (R81): no flag. -/
def execAddb (x : Reg) (nn : Byte) (s : State) : Result := .next (s.setReg x (s.reg x + nn))

/-- 8XY0 `MOV Vx, Vy` (R82). -/
def execMov (x y : Reg) (s : State) : Result := .next (s.setReg x (s.reg y))

/-- 8XY1 `OR Vx, Vy` (R83): no flag. -/
def execOr (x y : Reg) (s : State) : Result := .next (s.setReg x (s.reg x ||| s.reg y))

/-- 8XY2 `AND Vx, Vy` (R84): no flag. -/
def execAnd (x y : Reg) (s : State) : Result := .next (s.setReg x (s.reg x &&& s.reg y))

/-- 8XY3 `XOR Vx, Vy` (R85): no flag. -/
def execXor (x y : Reg) (s : State) : Result := .next (s.setReg x (s.reg x ^^^ s.reg y))

/-- 8XY4 `ADD Vx, Vy` (R86): flag is the carry. -/
def execAdd (x y : Reg) (s : State) : Result :=
  .next (setResultAndFlag s x (sumLow (s.reg x) (s.reg y)) (carryOut (s.reg x) (s.reg y)))

/-- 8XY5 `SUB Vx, Vy` (R87): flag is 1 when `V[X] > V[Y]` strictly. -/
def execSub (x y : Reg) (s : State) : Result :=
  .next (setResultAndFlag s x (s.reg x - s.reg y) (strictlyGreater (s.reg x) (s.reg y)))

/-- 8XY6 `SHR Vx` (R88): `Y` is ignored. -/
def execShr (x _y : Reg) (s : State) : Result :=
  .next (setResultAndFlag s x (s.reg x >>> 1) (bit0 (s.reg x)))

/-- 8XY7 `SUBN Vx, Vy` (R89): flag is 1 when `V[Y] > V[X]` strictly. -/
def execSubn (x y : Reg) (s : State) : Result :=
  .next (setResultAndFlag s x (s.reg y - s.reg x) (strictlyGreater (s.reg y) (s.reg x)))

/-- 8XYE `SHL Vx` (R90): `Y` is ignored. -/
def execShl (x _y : Reg) (s : State) : Result :=
  .next (setResultAndFlag s x (s.reg x <<< 1) (bit7 (s.reg x)))

/-- CXNN `RND Vx, nn` (R92): one answer of `random_byte()`, a free value (assumption log 6). -/
def execRnd (x : Reg) (nn : Byte) (s : State) : Result :=
  .next ((randomByte s).2.setReg x ((randomByte s).1 &&& nn))

end Sys2Proof.Machine
end

