-- ==== Sys2Proof/Machine/Operands.lean ====
section
/-! DEFINITION. The operand forms (30_encoding.md R53): literals, the register range of FX55 and FX65, the address `I + k`
(42_index_memory.md R107), the checked operands (a sprite digit, a key, a column), and the digits FX33 stores. -/

namespace Sys2Proof.Machine

/-- `zext_16(NNN)` (R53). -/
def addrLiteral (nnn : Addr12) : Word := nnn.setWidth 16

/-- `zext_16(V[x])` (42_index_memory.md R101, R102). -/
def regWord (s : State) (x : Reg) : Word := (s.reg x).setWidth 16

/-- The effective address `I + k`, on naturals (R107). -/
def effAddr (s : State) (k : Nat) : Nat := s.i.toNat + k

/-- `V[0]`, `V[1]`, ..., `V[x]` (42_index_memory.md R105). -/
def regsUpTo (s : State) (x : Reg) : List Byte := s.v.toList.take (x.val + 1)

/-- How many registers `V[0]..V[x]` are (42_index_memory.md R105, R106). -/
def regCount (x : Reg) : Nat := x.val + 1

/-- The sprite digit of FX29, 0..0xF; the whole register value is tested (42_index_memory.md R103). -/
def spriteDigit (d : Byte) : Except Fault (Fin 16) :=
  if h : d.toNat < 16 then .ok ⟨d.toNat, h⟩ else .error (.invalidSpriteDigit d)

/-- The key number of EX9E and EXA1, 0..0xF (44_keypad_timers.md R115, R116). -/
def keyNumber (k : Byte) : Except Fault Key :=
  if h : k.toNat < 16 then .ok ⟨k.toNat, h⟩ else .error (.keyIndexOutOfRange k)

/-- The column of DXYN, 0..63: the column does not wrap (43_display.md R111). -/
def column (x : Byte) : Except Fault (Fin 64) :=
  if h : x.toNat < 64 then .ok ⟨x.toNat, h⟩ else .error (.framebufferOutOfRange x)

/-- `(y + i) mod 32`: the row wraps (43_display.md R111). -/
def row (y : Byte) (i : Nat) : Fin 32 := ⟨(y.toNat + i) % 32, Nat.mod_lt _ (by decide)⟩

/-- Hundreds, tens and ones (42_index_memory.md R104). -/
def bcdDigits (v : Byte) : List Byte :=
  [BitVec.ofNat 8 (v.toNat / 100), BitVec.ofNat 8 (v.toNat / 10 % 10), BitVec.ofNat 8 (v.toNat % 10)]

/-- `zext_16(d) * 5`, the address of a digit's sprite (10_state.md R21, 42_index_memory.md R103). -/
def digitAddr (d : Fin 16) : Word := BitVec.ofNat 16 (d.val * 5)

end Sys2Proof.Machine
end

