-- ==== Sys2Proof/Machine/ControlFlow.lean ====
section
/-! DEFINITION. Control flow: 00EE, 1NNN, 2NNN, 3XNN, 4XNN, 5XY0, 9XY0 (spec/40_control_flow.md). In every meaning `PC`
already holds the address of the instruction plus 2 (30_encoding.md R55). -/

namespace Sys2Proof.Machine

/-- 00EE `RET` (R71): `PC <- Pop()`, all 16 bits of the popped word. -/
def execRet (s : State) : Result :=
  match pop s with
  | .ok (w, t) => .next (jumpTo t w)
  | .error f => raise f

/-- 1NNN `JP nnn` (R72). -/
def execJp (nnn : Addr12) (s : State) : Result := .next (jumpTo s (addrLiteral nnn))

/-- 2NNN `CALL nnn` (R73): the pushed word is the advanced `PC`. -/
def execCall (nnn : Addr12) (s : State) : Result :=
  match push s s.pc with
  | .ok t => .next (jumpTo t (addrLiteral nnn))
  | .error f => raise f

/-- 3XNN `SEB Vx, nn` (R74). -/
def execSeb (x : Reg) (nn : Byte) (s : State) : Result := .next (skipIf (s.reg x == nn) s)

/-- 4XNN `SNEB Vx, nn` (R75). -/
def execSneb (x : Reg) (nn : Byte) (s : State) : Result := .next (skipIf (s.reg x != nn) s)

/-- 5XY0 `SE Vx, Vy` (R76). -/
def execSe (x y : Reg) (s : State) : Result := .next (skipIf (s.reg x == s.reg y) s)

/-- 9XY0 `SNE Vx, Vy` (R77). -/
def execSne (x y : Reg) (s : State) : Result := .next (skipIf (s.reg x != s.reg y) s)

end Sys2Proof.Machine
end

