-- ==== Sys2Proof/Machine/Display.lean ====
section
/-! DEFINITION. The framebuffer instructions: 00E0, DXYN (spec/43_display.md). -/

namespace Sys2Proof.Machine

/-- 00E0 `CLS` (R110). -/
def execCls (s : State) : Result := .next s.clearFrame

/-- One iteration of DXYN's loop (R111): the cell of column `V[X]` and row `(y + i) mod 32` is XORed with the byte at `I`,
the same address every iteration (R112); the collision is accumulated in `f`. The column is checked before the byte is
read. -/
def drawRow (x y : Byte) (i : Nat) (s : State) (f : Bool) : Except Fault (State × Bool) :=
  match column x with
  | .error e => .error e
  | .ok c =>
    match readByte s (effAddr s 0) with
    | .error e => .error e
    | .ok b =>
      let prev := s.cell c (row y i)
      let new := prev ^^^ b
      .ok (s.setCell c (row y i) new, f || collides prev new)

/-- `n` iterations of the loop from iteration `i` on (R111). -/
def drawRows (x y : Byte) : Nat → Nat → State → Bool → Except Fault (State × Bool)
  | 0, _, s, f => .ok (s, f)
  | n + 1, i, s, f =>
    match drawRow x y i s f with
    | .error e => .error e
    | .ok (t, g) => drawRows x y n (i + 1) t g

/-- DXYN `DRW Vx, Vy, n` (R111): `V[X]` and `V[Y]` are read first, `VF` is written last, also when `n` is 0. -/
def execDrw (x y : Reg) (n : Nat) (s : State) : Result :=
  match drawRows (s.reg x) (s.reg y) n 0 s false with
  | .error e => raise e
  | .ok (t, f) => .next (t.setReg vf (flagByte f))

end Sys2Proof.Machine
end

