-- ==== Sys2Proof/Machine/IndexMemory.lean ====
section
/-! DEFINITION. The index register and memory: ANNN, BNNN, FX1E, FX29, FX33, FX55, FX65 (spec/42_index_memory.md). No
memory access changes `I` (R107). -/

namespace Sys2Proof.Machine

/-- `I <- w`. -/
def setI (s : State) (w : Word) : State := { s with i := w }

/-- ANNN `MVI nnn` (R100). -/
def execMvi (nnn : Addr12) (s : State) : Result := .next (setI s (addrLiteral nnn))

/-- BNNN `MVI0 nnn` (R101): it loads `I` and does not jump. -/
def execMvi0 (nnn : Addr12) (s : State) : Result := .next (setI s (addrLiteral nnn + regWord s 0))

/-- FX1E `ADI Vx` (R102): modulo 2^16, no 12-bit mask, no flag. -/
def execAdi (x : Reg) (s : State) : Result := .next (setI s (s.i + regWord s x))

/-- FX29 `FNT Vx` (R103). -/
def execFnt (x : Reg) (s : State) : Result :=
  match spriteDigit (s.reg x) with
  | .ok d => .next (setI s (digitAddr d))
  | .error f => raise f

/-- FX33 `BCD Vx` (R104): three bytes from `I` on, or none. -/
def execBcd (x : Reg) (s : State) : Result := finish (writeBytes s (effAddr s 0) (bcdDigits (s.reg x)))

/-- FX55 `STR Vx` (R105): `X + 1` bytes from `I` on, or none. -/
def execStr (x : Reg) (s : State) : Result := finish (writeBytes s (effAddr s 0) (regsUpTo s x))

/-- FX65 `LDR Vx` (R106): `X + 1` registers, or none. -/
def execLdr (x : Reg) (s : State) : Result :=
  match readBytes s (effAddr s 0) (regCount x) with
  | .ok bs => .next (s.setRegsFrom 0 bs)
  | .error f => raise f

end Sys2Proof.Machine
end

