-- ==== Sys2Proof/Machine/KeypadTimers.lean ====
section
/-! DEFINITION. Keypad and timers: EX9E, EXA1, FX07, FX0A, FX15, FX18 (spec/44_keypad_timers.md). -/

namespace Sys2Proof.Machine

/-- EX9E `SKP Vx` (R115). -/
def execSkp (x : Reg) (s : State) : Result :=
  match keyNumber (s.reg x) with
  | .ok k => .next (skipIf (keyPressed s k) s)
  | .error f => raise f

/-- EXA1 `SKNP Vx` (R116). -/
def execSknp (x : Reg) (s : State) : Result :=
  match keyNumber (s.reg x) with
  | .ok k => .next (skipIf (!keyPressed s k) s)
  | .error f => raise f

/-- FX07 `GDT Vx` (R117). -/
def execGdt (x : Reg) (s : State) : Result := .next (s.setReg x (delayGet s))

/-- FX0A `KEY Vx` (R118): it writes `mode` alone; `V[X]` is written by the notification, which reads `X` again from the
word at `PC - 2` (10_state.md R22). -/
def execKey (_x : Reg) (s : State) : Result := .next { s with mode := .waitingForKey }

/-- FX15 `SDT Vx` (R119). -/
def execSdt (x : Reg) (s : State) : Result := .next (delaySet s (s.reg x))

/-- FX18 `SST Vx` (R120). -/
def execSst (x : Reg) (s : State) : Result := .next (soundSet s (s.reg x))

end Sys2Proof.Machine
end

