-- ==== Sys2Proof/Machine/Dispatch.lean ====
section
/-! DEFINITION. One arm per instruction (spec/30_encoding.md R62). -/

namespace Sys2Proof.Machine

-- the meaning of an instruction, in the state whose PC the step has already advanced (R55)
def exec (i : Instr) (s : State) : Host.Outcome State Fault Refusal :=
  match i with
  | .cls => Sys2Proof.Machine.execCls s
  | .ret => Sys2Proof.Machine.execRet s
  | .jp nnn => Sys2Proof.Machine.execJp nnn s
  | .call nnn => Sys2Proof.Machine.execCall nnn s
  | .seb x nn => Sys2Proof.Machine.execSeb x nn s
  | .sneb x nn => Sys2Proof.Machine.execSneb x nn s
  | .se x y => Sys2Proof.Machine.execSe x y s
  | .ldb x nn => Sys2Proof.Machine.execLdb x nn s
  | .addb x nn => Sys2Proof.Machine.execAddb x nn s
  | .mov x y => Sys2Proof.Machine.execMov x y s
  | .or x y => Sys2Proof.Machine.execOr x y s
  | .and x y => Sys2Proof.Machine.execAnd x y s
  | .xor x y => Sys2Proof.Machine.execXor x y s
  | .add x y => Sys2Proof.Machine.execAdd x y s
  | .sub x y => Sys2Proof.Machine.execSub x y s
  | .shr x y => Sys2Proof.Machine.execShr x y s
  | .subn x y => Sys2Proof.Machine.execSubn x y s
  | .shl x y => Sys2Proof.Machine.execShl x y s
  | .sne x y => Sys2Proof.Machine.execSne x y s
  | .mvi nnn => Sys2Proof.Machine.execMvi nnn s
  | .mvi0 nnn => Sys2Proof.Machine.execMvi0 nnn s
  | .rnd x nn => Sys2Proof.Machine.execRnd x nn s
  | .drw x y n => Sys2Proof.Machine.execDrw x y n s
  | .skp x => Sys2Proof.Machine.execSkp x s
  | .sknp x => Sys2Proof.Machine.execSknp x s
  | .gdt x => Sys2Proof.Machine.execGdt x s
  | .key x => Sys2Proof.Machine.execKey x s
  | .sdt x => Sys2Proof.Machine.execSdt x s
  | .sst x => Sys2Proof.Machine.execSst x s
  | .adi x => Sys2Proof.Machine.execAdi x s
  | .fnt x => Sys2Proof.Machine.execFnt x s
  | .bcd x => Sys2Proof.Machine.execBcd x s
  | .str x => Sys2Proof.Machine.execStr x s
  | .ldr x => Sys2Proof.Machine.execLdr x s

end Sys2Proof.Machine
end

