-- ==== Sys2Proof/Machine/Engine.lean ====
section
/-! DEFINITION. The engine's only action, `step()` (spec/30_encoding.md R55). -/

namespace Sys2Proof.Machine

/-- The fetch: one 2-byte read at `PC`, whatever its parity (20_memory.md R35, R36). -/
def fetch (s : State) : Except Fault Word := readWord s s.pc.toNat

/-- `step()` (R55): a complete no-op in WAITING_FOR_KEY; in RUNNING fetch, then the increment of `PC`, then decode, then
the instruction's own rule. A fault leaves no next state, so every piece of state keeps its value (60_exceptions.md R131),
and the order of the checks is that of 60_exceptions.md R133. -/
def engineStep (s : State) : Result :=
  match s.mode with
  | .waitingForKey => .next s
  | .running =>
    match fetch s with
    | .error f => raise f
    | .ok w =>
      match decodeWord w with
      | none => raise (.invalidOpcode w)
      | some i => exec i (advancePc s)

end Sys2Proof.Machine
end

