-- ==== Sys2Proof/Machine/Environment.lean ====
section
/-! DEFINITION. The actions of the host, the input layer and the timer device (spec/00_scope.md R4, 60_exceptions.md R145
to R153, 70_reset_and_hazards.md R160 to R163), and any action of any agent as one function, `act`. -/

namespace Sys2Proof.Machine

/-- Why `load_program` fails: `LoadError::TooLarge` (60_exceptions.md R136). -/
inductive LoadError where
  | tooLarge
  deriving DecidableEq, Repr

/-- What an action answers its caller (60_exceptions.md R153). -/
inductive Reply where
  /-- done -/
  | ok
  /-- `Fault(code, info)`: the state is as it was before the action (60_exceptions.md R131) -/
  | fault (f : Fault)
  /-- a meaning is missing; no action of this machine answers so -/
  | refused (r : Refusal)
  /-- `Err(LoadError::TooLarge)`: memory is as it was (70_reset_and_hazards.md R162) -/
  | loadError (e : LoadError)
  /-- the whole grid, read-only (43_display.md R113) -/
  | grid (g : Framebuffer)
  deriving DecidableEq, Repr

/-- `init()` (R160): everything at its reset value, except the key state, which the input layer owns, and the model's own
fields: the random source's next answer and the actions still to come (assumption logs 5, 6). -/
def init (s : State) : State :=
  { State.reset with keys := s.keys, draws := s.draws, schedule := s.schedule }

/-- `load_program(bytes)` (R162): memory from 0x200 on holds the bytes, in the order given and unswapped, or nothing
changes. -/
def loadProgram (bytes : List Byte) (s : State) : Except LoadError State :=
  if bytes.length > Config.maxProgramBytes then .error .tooLarge
  else .ok { s with mem := s.mem.setBytes Config.programLoadAddr bytes }

/-- `framebuffer()` (43_display.md R113). -/
def framebuffer (s : State) : Framebuffer := s.frame

/-- A cell is lit when its byte is not 0 (10_state.md R18). -/
def lit (s : State) (x : Fin 64) (y : Fin 32) : Bool := s.cell x y != 0#8

/-- The word of the pending FX0A, read again at `PC - 2` (10_state.md R22, 60_exceptions.md R145). -/
def pendingWord (s : State) : Except Fault Word := readWord s (s.pc - 2#16).toNat

/-- `notify_key_pressed(key)` (60_exceptions.md R145). Where `PC - 2` is outside memory, which no run reaches, the read
raises its fault (assumption log 9). -/
def notifyKeyPressed (key : Key) (s : State) : Except Fault State :=
  match s.mode with
  | .running => .ok s
  | .waitingForKey =>
    match pendingWord s with
    | .error f => .error f
    | .ok w => .ok { s.setReg (opX w) (BitVec.ofNat 8 key.val) with mode := .running }

/-- The input layer changes one key's Boolean (60_exceptions.md R147). -/
def setKey (key : Key) (pressed : Bool) (s : State) : State := { s with keys := s.keys.set key pressed }

/-- A countdown that stops at 0 (60_exceptions.md R150; the stop is PRESUMED, assumption log 7). -/
def countDown (b : Byte) : Byte := if b = 0#8 then 0#8 else b - 1#8

/-- `tick_delay()` (60_exceptions.md R150). -/
def tickDelay (s : State) : State := { s with dt := countDown s.dt }

/-- `tick_sound()` (60_exceptions.md R150). -/
def tickSound (s : State) : State := { s with st := countDown s.st }

/-- Any action of any agent: the state after it and what it answers (00_scope.md R4). A step that faults leaves the state as
it was (60_exceptions.md R131), and the host may act again (R132, R134). -/
def act (a : Action) (s : State) : State × Reply :=
  match a with
  | .step =>
    match engineStep s with
    | .next t => (t, .ok)
    | .fault f => (s, .fault f)
    | .refused r => (s, .refused r)
  | .init => (init s, .ok)
  | .loadProgram bytes =>
    match loadProgram bytes s with
    | .ok t => (t, .ok)
    | .error e => (s, .loadError e)
  | .framebuffer => (s, .grid (framebuffer s))
  | .notifyKeyPressed key =>
    match notifyKeyPressed key s with
    | .ok t => (t, .ok)
    | .error f => (s, .fault f)
  | .keyChange key pressed => (setKey key pressed s, .ok)
  | .tickDelay => (tickDelay s, .ok)
  | .tickSound => (tickSound s, .ok)

/-- A run of actions, with their answers in order. -/
def runActions : List Action → State → State × List Reply
  | [], s => (s, [])
  | a :: as, s => ((runActions as (act a s).1).1, (act a s).2 :: (runActions as (act a s).1).2)

/-- The action that comes next, and the state in which it is no longer to come: the engine steps where nothing is scheduled
(assumption log 5). -/
def nextAction (s : State) : Action × State :=
  match s.schedule with
  | [] => (.step, s)
  | a :: as => (a, { s with schedule := as })

/-- An action's answer as the outcome of a step of the whole machine: a fault or a refusal stops the run; a load error does
not, for it is not a step's result (60_exceptions.md R136). -/
def outcomeOf : State × Reply → Result
  | (s, .ok) => .next s
  | (_, .fault f) => raise f
  | (_, .refused r) => .refused r
  | (s, .loadError _) => .next s
  | (s, .grid _) => .next s

end Sys2Proof.Machine
end

