-- ==== Sys2Proof/Machine/Step.lean ====
section
/-! DEFINITION. One step of the machine, and how an instruction is placed where it is fetched. -/

namespace Sys2Proof.Machine

/-- One step: the next action of the machine's agents (spec/00_scope.md R4). Where nothing is scheduled, as after reset, it
is the engine's `step()` (30_encoding.md R55). -/
def step (s : State) : Host.Outcome State Fault Refusal :=
  outcomeOf (act (nextAction s).1 (nextAction s).2)

/-- Where the next instruction is fetched: `PC`, or the entry point 0x200 where no instruction can stand at `PC`. -/
def fetchPlace (s : State) : Word := if inRange s.pc.toNat 2 then s.pc else 0x0200#16

/-- The state in which the very next step runs the instruction of a table row's bits: the word stands in memory where it is
fetched, high byte first (20_memory.md R31), the engine is RUNNING and nothing else is scheduled (assumption log 8). -/
def State.withFetchWord (s : State) (nbits w : Nat) : State :=
  { s with
    pc := fetchPlace s
    mode := .running
    schedule := []
    mem := s.mem.setBytes (fetchPlace s).toNat (bytesOfWord (BitVec.ofNat 16 (w % 2 ^ nbits))) }

end Sys2Proof.Machine
end

