-- ==== Sys2Proof/Safety.lean ====
section
/-! DEFINITION. What counts as a safe run, and the words claims are stated in: the invariant (spec/10_state.md R25), reachable
states, final states (70_reset_and_hazards.md R164), and frames. -/

namespace Sys2Proof.Machine

/-! ### The invariant -/

/-- `SP` is even and `STACK_LIMIT - 2 <= SP <= 0xEFE` (10_state.md R25). -/
abbrev StackInv (s : State) : Prop :=
  s.sp.toNat % 2 = 0 ∧ Config.stackLimit ≤ s.sp.toNat + 2 ∧ s.sp.toNat ≤ Config.stackBaseAddr

/-- While waiting, the pending FX0A can be read again at `PC - 2` (60_exceptions.md R145). -/
abbrev WaitInv (s : State) : Prop := s.mode = .waitingForKey → inRange (s.pc - 2#16).toNat 2 = true

/-- The invariant: memory keeps its canonical form, with every listed address in 0x000..0xFFF, and the two above. -/
abbrev MachineInv (s : State) : Prop := s.mem.wf = true ∧ StackInv s ∧ WaitInv s

/-- How many return addresses are on the stack (10_state.md R25). -/
def stackDepth (s : State) : Nat := (Config.stackBaseAddr - s.sp.toNat) / 2

/-! ### Runs -/

/-- The states that a run reaches: `init` first, with any key state, random source and schedule, then any actions of the
agents in any order (70_reset_and_hazards.md R163, R167). -/
inductive Reachable : State → Prop where
  | init (s : State) : Reachable (Machine.init s)
  | act (a : Action) (s : State) (h : Reachable s) : Reachable (Machine.act a s).1

/-- An answer that reports no fault and no refusal. -/
def Reply.isClean : Reply → Bool
  | .ok => true
  | .fault _ => false
  | .refused _ => false
  | .loadError _ => true
  | .grid _ => true

/-- A safe run: no action of it reports a fault (60_exceptions.md R131, R132). -/
def SafeRun (as : List Action) (s : State) : Prop := ∀ r ∈ (runActions as s).2, r.isClean = true

/-- The engine's next step fetches and decodes this instruction (30_encoding.md R55). -/
def Fetches (s : State) (i : Instr) : Prop :=
  s.mode = .running ∧ ∃ w, fetch s = .ok w ∧ decodeWord w = some i

/-- A state a claim may treat as the end of a program: RUNNING, at a jump to itself (70_reset_and_hazards.md R164). -/
def IsFinal (s : State) : Prop := ∃ nnn, Fetches s (.jp nnn) ∧ nnn.toNat = s.pc.toNat

/-! ### Frames: what an action leaves unchanged -/

/-- What may be written; whatever is not named keeps its value. -/
structure Writes where
  regs : List Reg := []
  i : Bool := false
  pc : Bool := false
  sp : Bool := false
  mode : Bool := false
  mem : Bool := false
  frame : Bool := false
  keys : Bool := false
  dt : Bool := false
  st : Bool := false
  draws : Bool := false

/-- Every byte of memory reads as before. -/
def MemSame (s t : State) : Prop := ∀ a, readByte t a = readByte s a

/-- Every byte of memory outside `len` bytes at `addr` reads as before. -/
def MemSameOutside (addr len : Nat) (s t : State) : Prop :=
  ∀ a, a < addr ∨ addr + len ≤ a → readByte t a = readByte s a

/-- Every cell of the framebuffer is as before. -/
def FrameSame (s t : State) : Prop := ∀ x y, t.cell x y = s.cell x y

/-- From `s` to `t` nothing changed but what `w` names. -/
structure Keeps (w : Writes) (s t : State) : Prop where
  regs : ∀ r, r ∉ w.regs → t.reg r = s.reg r
  i : w.i = false → t.i = s.i
  pc : w.pc = false → t.pc = s.pc
  sp : w.sp = false → t.sp = s.sp
  mode : w.mode = false → t.mode = s.mode
  mem : w.mem = false → MemSame s t
  frame : w.frame = false → FrameSame s t
  keys : w.keys = false → t.keys = s.keys
  dt : w.dt = false → t.dt = s.dt
  st : w.st = false → t.st = s.st
  draws : w.draws = false → t.draws = s.draws
  schedule : t.schedule = s.schedule

/-! ### What the spec says an instruction may do -/

/-- The registers an instruction's operand fields name as its destination (10_state.md R11, 41_alu.md,
42_index_memory.md R106, 44_keypad_timers.md R117). FX0A's register is written by the notification, not by it. -/
def destRegs : Instr → List Reg
  | .cls => []
  | .ret => []
  | .jp _ => []
  | .call _ => []
  | .seb _ _ => []
  | .sneb _ _ => []
  | .se _ _ => []
  | .ldb x _ => [x]
  | .addb x _ => [x]
  | .mov x _ => [x]
  | .or x _ => [x]
  | .and x _ => [x]
  | .xor x _ => [x]
  | .add x _ => [x]
  | .sub x _ => [x]
  | .shr x _ => [x]
  | .subn x _ => [x]
  | .shl x _ => [x]
  | .sne _ _ => []
  | .mvi _ => []
  | .mvi0 _ => []
  | .rnd x _ => [x]
  | .drw _ _ _ => []
  | .skp _ => []
  | .sknp _ => []
  | .gdt x => [x]
  | .key _ => []
  | .sdt _ => []
  | .sst _ => []
  | .adi _ => []
  | .fnt _ => []
  | .bcd _ => []
  | .str _ => []
  | .ldr x => (List.finRange 16).filter (fun r => r ≤ x)

/-- The instructions that write `VF` as a flag: 8XY4, 8XY5, 8XY6, 8XY7, 8XYE, DXYN (10_state.md R11). -/
def writesFlag : Instr → Bool
  | .add _ _ => true
  | .sub _ _ => true
  | .shr _ _ => true
  | .subn _ _ => true
  | .shl _ _ => true
  | .drw _ _ _ => true
  | _ => false

/-- The instructions that can raise a fault once fetched and decoded (60_exceptions.md R130). -/
def mayFault : Instr → Bool
  | .ret => true
  | .call _ => true
  | .fnt _ => true
  | .bcd _ => true
  | .str _ => true
  | .ldr _ => true
  | .drw _ _ n => decide (0 < n)
  | .skp _ => true
  | .sknp _ => true
  | _ => false

/-- The six skip instructions (10_state.md R13). -/
def isSkip : Instr → Bool
  | .seb _ _ => true
  | .sneb _ _ => true
  | .se _ _ => true
  | .sne _ _ => true
  | .skp _ => true
  | .sknp _ => true
  | _ => false

/-- Every word of an opcode row decodes to the row's instruction, with the word's own fields (30_encoding.md R62). -/
def RowDecodesTo (mask value : Word) (mk : Word → Instr) : Prop :=
  ∀ w, w &&& mask = value → decodeWord w = some (mk w)

end Sys2Proof.Machine
end

