-- ==== Sys2Proof/Certificates/Slice0/Obligations.lean ====
section
/-! DEFINITION. The statements for the provers, each from the numbered rules of spec/ that its docstring names. A per-instruction
statement says how the instruction's words decode, what it does in full, where it faults, and its frame (`Keeps`): nothing
else changes. `exec` runs in the state whose `PC` the step has already advanced (30_encoding.md R55).
Where a docstring names a decision D<n>, the clause rests on that row of spec/92_eei_decisions.md, a choice of the spec's
own where its source is silent, which the model follows (assumption log 10). Where it says "derived", it rests on an
inference the spec marks as its own. Wherever `Memory.wf` stands, alone or in `MachineInv`, it is the canonical form of the
model's own list of bytes, no rule of the spec (assumption log 12). -/

open Sys2Proof Sys2Proof.Machine

/-! ## Encoding -/

/-- R61, R62: an instruction's word decodes to it, with every operand at every value its field admits. -/
def Obligations.DecodeOfEncodeIsTheInstruction : Prop :=
  ∀ i : Instr, i.wellFormed = true →
    decodeWord (encode i) = some i ∧ ∀ rest, decode (encodeBytes i ++ rest) = .ok (i, rest)

/-- R54, R58, R61: a word that decodes is the word of the instruction it decodes to, which is well formed. -/
def Obligations.EncodeOfDecodeIsTheWord : Prop :=
  ∀ (w : Word) (i : Instr), decodeWord w = some i → i.wellFormed = true ∧ encode i = w

/-- R56, R57, decision D7: the invalid words, group by group, and what a step that fetches one answers. -/
def Obligations.InvalidWordsAreExactlyTheListedOnes : Prop :=
  (∀ w : Word, decodeWord w = none ↔
    (opG w = 0x0 ∧ w ≠ 0x00E0#16 ∧ w ≠ 0x00EE#16) ∨
    (opG w = 0x5 ∧ opN w ≠ 0) ∨
    (opG w = 0x8 ∧ opN w ∈ [0x8, 0x9, 0xA, 0xB, 0xC, 0xD, 0xF]) ∨
    (opG w = 0x9 ∧ opN w ≠ 0) ∨
    (opG w = 0xE ∧ (opNN w).toNat ∉ [0x9E, 0xA1]) ∨
    (opG w = 0xF ∧ (opNN w).toNat ∉ [0x07, 0x0A, 0x15, 0x18, 0x1E, 0x29, 0x33, 0x55, 0x65])) ∧
  ∀ (s : State) (w : Word), s.mode = .running → fetch s = .ok w → decodeWord w = none →
    engineStep s = .fault (.invalidOpcode w)

/-- R62: the map has 34 rows, no two rows match the same word, a word is valid exactly when a row matches it, and it decodes
to an instruction of that row. -/
def Obligations.OpcodeMapIsCompleteAndUnambiguous : Prop :=
  opcodeMap.length = 34 ∧
  (∀ r ∈ opcodeMap, ∀ r' ∈ opcodeMap, ∀ w, r.selects w = true → r'.selects w = true → r = r') ∧
  (∀ r ∈ opcodeMap, ∀ w, r.selects w = true → ∃ i, decodeWord w = some i ∧ opcodeRow i = r) ∧
  ∀ w i, decodeWord w = some i → opcodeRow i ∈ opcodeMap ∧ (opcodeRow i).selects w = true

/-- Words written out from the spec's encodings, at least one of each family (the spec's own examples where it has one). -/
def Obligations.WrittenWordsDecodeAsTheSpecSays : Prop :=
  decodeWord 0x00E0#16 = some .cls ∧ decodeWord 0x00EE#16 = some .ret ∧
  decodeWord 0x1234#16 = some (.jp 0x234#12) ∧ decodeWord 0x2ABC#16 = some (.call 0xABC#12) ∧
  decodeWord 0x332A#16 = some (.seb 3 0x2A#8) ∧ decodeWord 0x6A7F#16 = some (.ldb 10 0x7F#8) ∧
  decodeWord 0x8124#16 = some (.add 1 2) ∧ decodeWord 0x8176#16 = some (.shr 1 7) ∧
  decodeWord 0xA2F0#16 = some (.mvi 0x2F0#12) ∧ decodeWord 0xD014#16 = some (.drw 0 1 4) ∧
  decodeWord 0xE5A1#16 = some (.sknp 5) ∧ decodeWord 0xF40A#16 = some (.key 4) ∧
  decodeWord 0xF265#16 = some (.ldr 2) ∧ decodeWord 0x0AEE#16 = none ∧ decodeWord 0x5121#16 = none

/-! ## The step -/

/-- R50, R55: in RUNNING, when the two bytes at `PC` decode to an instruction, a step runs it in the state whose `PC` is 2
further on and which is otherwise the same. With nothing scheduled, as after reset, the step is the engine's; so it is when
the schedule says that the engine moves next (the schedule is the model's own field, assumption log 5). -/
def Obligations.StepRunsTheDecodedInstruction : Prop :=
  (∀ (s : State) (hi lo : Byte) (i : Instr), s.mode = .running →
    readByte s s.pc.toNat = .ok hi → readByte s (s.pc.toNat + 1) = .ok lo → decode [hi, lo] = .ok (i, []) →
    engineStep s = exec i (advancePc s) ∧
    (s.schedule = [] → step s = exec i (advancePc s)) ∧
    ∀ as, s.schedule = .step :: as → step s = exec i (advancePc { s with schedule := as })) ∧
  ∀ s : State, (s.pc.toNat ≤ 0xFFFD → (advancePc s).pc.toNat = s.pc.toNat + 2) ∧
    Keeps { pc := true } s (advancePc s)

/-- R55, R133, decisions D1, D3, D4: the fetch's range check comes first, whatever `PC` holds, odd or even, then decode, and
any fault left is the one that the decoded instruction itself raises. -/
def Obligations.FetchThenDecodeFaultsComeFirst : Prop :=
  ∀ s : State, s.mode = .running →
    (0xFFE < s.pc.toNat → engineStep s = .fault (.addressOutOfRange s.pc.toNat)) ∧
    (s.pc.toNat ≤ 0xFFE → ∃ w, readWord s s.pc.toNat = .ok w ∧
      (decodeWord w = none → engineStep s = .fault (.invalidOpcode w)) ∧
      ∀ (i : Instr) (f : Fault), decodeWord w = some i → engineStep s = .fault f →
        exec i (advancePc s) = .fault f ∧ mayFault i = true)

/-- R55, R146: while waiting, any number of steps changes nothing, and every one of them answers Ok. -/
def Obligations.WaitingStepsChangeNothing : Prop :=
  ∀ (n : Nat) (s : State), s.mode = .waitingForKey →
    runActions (List.replicate n .step) s = (s, List.replicate n .ok)

/-- R131, R132, decision D1: a step that faults leaves every piece of state as it was, and every later step answers the
same fault. -/
def Obligations.FaultingStepChangesNothingAndRecurs : Prop :=
  ∀ (n : Nat) (s : State) (f : Fault), engineStep s = .fault f →
    runActions (List.replicate n .step) s = (s, List.replicate n (.fault f))

/-- R130: every fault of a step is one of the seven, raised where the table says, on its condition, with the value recorded.
The premise is the invariant (stated below): in a state it rules out, `SP` can lie above memory. Decisions D2 (the codes),
D3, D5, D9, D10 (three of the faults, and the stack's tests). -/
def Obligations.EveryFaultHasItsCondition : Prop :=
  ∀ (s : State) (f : Fault), MachineInv s → engineStep s = .fault f →
    match f with
    | .invalidOpcode w => f.code = 1 ∧ fetch s = .ok w ∧ decodeWord w = none
    | .stackOverflow sp => f.code = 2 ∧ (∃ n, Fetches s (.call n)) ∧ sp = s.sp ∧ sp.toNat < Config.stackLimit
    | .stackUnderflow sp => f.code = 3 ∧ Fetches s .ret ∧ sp = s.sp ∧ 0xEFE ≤ sp.toNat
    | .invalidSpriteDigit d => f.code = 4 ∧ ∃ x, Fetches s (.fnt x) ∧ d = s.reg x ∧ 0x0F < d.toNat
    | .addressOutOfRange a => f.code = 5 ∧ 0xFFF ≤ a ∧
        ((a = s.pc.toNat ∧ 0xFFE < a) ∨
         (a = max s.i.toNat 0x1000 ∧ ∃ x, (Fetches s (.bcd x) ∧ 0xFFF < s.i.toNat + 2) ∨
            ((Fetches s (.str x) ∨ Fetches s (.ldr x)) ∧ 0xFFF < s.i.toNat + x.val)) ∨
         (a = s.i.toNat ∧ 0xFFF < a ∧ ∃ x y n, Fetches s (.drw x y n) ∧ 0 < n ∧ (s.reg x).toNat ≤ 63))
    | .framebufferOutOfRange v => f.code = 6 ∧
        ∃ x y n, Fetches s (.drw x y n) ∧ 0 < n ∧ v = s.reg x ∧ 63 < v.toNat
    | .keyIndexOutOfRange k => f.code = 7 ∧
        ∃ x, (Fetches s (.skp x) ∨ Fetches s (.sknp x)) ∧ k = s.reg x ∧ 0x0F < k.toNat

/-- R130: 00E0, 1NNN, 3XNN, 4XNN, 5XY0, 6XNN, 7XNN, group 8, 9XY0, ANNN, BNNN, CXNN, FX07, FX0A, FX15, FX18, FX1E, and DXYN
with no row, never raise anything. -/
def Obligations.TheOtherInstructionsNeverFault : Prop :=
  ∀ (i : Instr) (s : State), mayFault i = false → ∃ t, exec i s = .next t

/-- R148: every instruction may be executed at any time: no step is refused, in any state. -/
def Obligations.NoStepIsRefused : Prop :=
  (∀ (i : Instr) (s : State) (r : Refusal), exec i s ≠ .refused r) ∧ ∀ (s : State) (r : Refusal), step s ≠ .refused r

/-! ## Loads, arithmetic, logic, shifts, random -/

/-- R80. -/
def Obligations.LdbLoadsTheLiteral : Prop :=
  (RowDecodesTo 0xF000#16 0x6000#16 fun w => .ldb (opX w) (opNN w)) ∧
  ∀ (x : Reg) (nn : Byte) (s : State), ∃ t, exec (.ldb x nn) s = .next t ∧ t.reg x = nn ∧ Keeps { regs := [x] } s t

/-- R81: modulo 256, and `VF` is no carry. -/
def Obligations.AddbAddsModulo256WithoutFlag : Prop :=
  (RowDecodesTo 0xF000#16 0x7000#16 fun w => .addb (opX w) (opNN w)) ∧
  ∀ (x : Reg) (nn : Byte) (s : State), ∃ t, exec (.addb x nn) s = .next t ∧
    (t.reg x).toNat = ((s.reg x).toNat + nn.toNat) % 256 ∧ Keeps { regs := [x] } s t

/-- R82. -/
def Obligations.MovCopiesARegister : Prop :=
  (RowDecodesTo 0xF00F#16 0x8000#16 fun w => .mov (opX w) (opY w)) ∧
  ∀ (x y : Reg) (s : State), ∃ t, exec (.mov x y) s = .next t ∧ t.reg x = s.reg y ∧ Keeps { regs := [x] } s t

/-- R83, R84, R85: bit by bit, and no flag. -/
def Obligations.LogicInstructionsAreBitwiseWithoutFlag : Prop :=
  (RowDecodesTo 0xF00F#16 0x8001#16 fun w => .or (opX w) (opY w)) ∧
  (RowDecodesTo 0xF00F#16 0x8002#16 fun w => .and (opX w) (opY w)) ∧
  (RowDecodesTo 0xF00F#16 0x8003#16 fun w => .xor (opX w) (opY w)) ∧
  ∀ (x y : Reg) (s : State),
    (∃ t, exec (.or x y) s = .next t ∧ Keeps { regs := [x] } s t ∧
      ∀ k, k < 8 → (t.reg x).getLsbD k = ((s.reg x).getLsbD k || (s.reg y).getLsbD k)) ∧
    (∃ t, exec (.and x y) s = .next t ∧ Keeps { regs := [x] } s t ∧
      ∀ k, k < 8 → (t.reg x).getLsbD k = ((s.reg x).getLsbD k && (s.reg y).getLsbD k)) ∧
    (∃ t, exec (.xor x y) s = .next t ∧ Keeps { regs := [x] } s t ∧
      ∀ k, k < 8 → (t.reg x).getLsbD k = ((s.reg x).getLsbD k != (s.reg y).getLsbD k))

/-- R86: the low 8 bits of the 9-bit sum, and the carry in `VF`, which wins when `x` is 15. -/
def Obligations.AddStoresTheSumAndTheCarry : Prop :=
  (RowDecodesTo 0xF00F#16 0x8004#16 fun w => .add (opX w) (opY w)) ∧
  ∀ (x y : Reg) (s : State), ∃ t, exec (.add x y) s = .next t ∧
    (x ≠ 15 → (t.reg x).toNat = ((s.reg x).toNat + (s.reg y).toNat) % 256) ∧
    t.reg 15 = (if (s.reg x).toNat + (s.reg y).toNat > 255 then 1#8 else 0#8) ∧ Keeps { regs := [x, 15] } s t

/-- R87: the difference modulo 256, and in `VF` whether `V[X] > V[Y]` strictly, from the old values. -/
def Obligations.SubStoresTheDifferenceAndTheStrictFlag : Prop :=
  (RowDecodesTo 0xF00F#16 0x8005#16 fun w => .sub (opX w) (opY w)) ∧
  ∀ (x y : Reg) (s : State), ∃ t, exec (.sub x y) s = .next t ∧
    (x ≠ 15 → (t.reg x).toNat = ((s.reg x).toNat + 256 - (s.reg y).toNat) % 256) ∧
    t.reg 15 = (if (s.reg x).toNat > (s.reg y).toNat then 1#8 else 0#8) ∧ Keeps { regs := [x, 15] } s t

/-- R88: bit 7 becomes 0, the old bit 0 goes to `VF`, and the `Y` field changes nothing. -/
def Obligations.ShrShiftsBitZeroIntoVF : Prop :=
  (RowDecodesTo 0xF00F#16 0x8006#16 fun w => .shr (opX w) (opY w)) ∧
  ∀ (x y : Reg) (s : State), ∃ t, exec (.shr x y) s = .next t ∧
    (x ≠ 15 → (t.reg x).toNat = (s.reg x).toNat / 2) ∧ (t.reg 15).toNat = (s.reg x).toNat % 2 ∧
    Keeps { regs := [x, 15] } s t ∧ ∀ y', exec (.shr x y') s = .next t

/-- R89: the reverse difference modulo 256, and in `VF` whether `V[Y] > V[X]` strictly, from the old values. -/
def Obligations.SubnStoresTheReverseDifferenceAndTheStrictFlag : Prop :=
  (RowDecodesTo 0xF00F#16 0x8007#16 fun w => .subn (opX w) (opY w)) ∧
  ∀ (x y : Reg) (s : State), ∃ t, exec (.subn x y) s = .next t ∧
    (x ≠ 15 → (t.reg x).toNat = ((s.reg y).toNat + 256 - (s.reg x).toNat) % 256) ∧
    t.reg 15 = (if (s.reg y).toNat > (s.reg x).toNat then 1#8 else 0#8) ∧ Keeps { regs := [x, 15] } s t

/-- R90: bit 0 becomes 0, the old bit 7 goes to `VF`, and the `Y` field changes nothing. -/
def Obligations.ShlShiftsBitSevenIntoVF : Prop :=
  (RowDecodesTo 0xF00F#16 0x800E#16 fun w => .shl (opX w) (opY w)) ∧
  ∀ (x y : Reg) (s : State), ∃ t, exec (.shl x y) s = .next t ∧
    (x ≠ 15 → (t.reg x).toNat = 2 * (s.reg x).toNat % 256) ∧ (t.reg 15).toNat = (s.reg x).toNat / 128 ∧
    Keeps { regs := [x, 15] } s t ∧ ∀ y', exec (.shl x y') s = .next t

/-- R92: one answer of the random source, whatever it is, under the mask `NN`; one draw, which no other instruction makes.
The counter that indexes the answers is the model's own (assumption log 6); nothing rests on its value. -/
def Obligations.RndMasksOneRandomByte : Prop :=
  (RowDecodesTo 0xF000#16 0xC000#16 fun w => .rnd (opX w) (opNN w)) ∧
  (∀ (x : Reg) (nn : Byte) (s : State), ∃ t, exec (.rnd x nn) s = .next t ∧
    (∀ k, k < 8 → (t.reg x).getLsbD k = ((Config.randomByte s.draws).getLsbD k && nn.getLsbD k)) ∧
    t.draws = s.draws + 1 ∧ Keeps { regs := [x], draws := true } s t) ∧
  ∀ (i : Instr) (s t : State), exec i s = .next t → (∀ x nn, i ≠ .rnd x nn) → t.draws = s.draws

/-- R11, and the destinations of 41_alu.md, 42_index_memory.md R106 and 44_keypad_timers.md R117: a flag instruction leaves 0
or 1 in `VF`, and a register keeps its value through every instruction that neither names it as its destination nor writes
it as the flag. -/
def Obligations.OnlyNamedRegistersAndTheFlagAreWritten : Prop :=
  ∀ (i : Instr) (s t : State), exec i s = .next t →
    (writesFlag i = true → t.reg 15 = 0#8 ∨ t.reg 15 = 1#8) ∧
    ∀ r : Reg, r ∉ destRegs i → (writesFlag i = true → r ≠ 15) → t.reg r = s.reg r

/-! ## Control flow -/

/-- R71, R41: the word at `SP + 2`, all 16 bits of it, becomes `PC`; an empty stack faults (decision D5). -/
def Obligations.RetPopsThePc : Prop :=
  (RowDecodesTo 0xFFFF#16 0x00EE#16 fun _ => .ret) ∧
  ∀ s : State,
    (s.sp.toNat < 0xEFE → ∃ t, exec .ret s = .next t ∧ readWord s (s.sp.toNat + 2) = .ok t.pc ∧
      t.sp.toNat = s.sp.toNat + 2 ∧ Keeps { pc := true, sp := true } s t) ∧
    (0xEFE ≤ s.sp.toNat → exec .ret s = .fault (.stackUnderflow s.sp))

/-- R72. -/
def Obligations.JpSetsThePc : Prop :=
  (RowDecodesTo 0xF000#16 0x1000#16 fun w => .jp (opNNN w)) ∧
  ∀ (nnn : Addr12) (s : State), ∃ t, exec (.jp nnn) s = .next t ∧ t.pc.toNat = nnn.toNat ∧ Keeps { pc := true } s t

/-- R73, R40: the advanced `PC` is stored big-endian at the old `SP`, `SP` goes down by 2, and `PC` becomes the literal; below
`STACK_LIMIT` the push faults, and so does one outside memory, which no run reaches (decisions D3,
D5). -/
def Obligations.CallPushesTheReturnAddress : Prop :=
  (RowDecodesTo 0xF000#16 0x2000#16 fun w => .call (opNNN w)) ∧
  ∀ (nnn : Addr12) (s : State),
    (s.mem.wf = true → Config.stackLimit ≤ s.sp.toNat → s.sp.toNat ≤ 0xFFE →
      ∃ t, exec (.call nnn) s = .next t ∧ readWord t s.sp.toNat = .ok s.pc ∧
        readByte t s.sp.toNat = .ok (BitVec.ofNat 8 (s.pc.toNat / 256)) ∧
        readByte t (s.sp.toNat + 1) = .ok (BitVec.ofNat 8 (s.pc.toNat % 256)) ∧
        t.sp.toNat = s.sp.toNat - 2 ∧ t.pc.toNat = nnn.toNat ∧
        MemSameOutside s.sp.toNat 2 s t ∧ Keeps { pc := true, sp := true, mem := true } s t) ∧
    (s.sp.toNat < Config.stackLimit → exec (.call nnn) s = .fault (.stackOverflow s.sp)) ∧
    (0xFFE < s.sp.toNat → exec (.call nnn) s = .fault (.addressOutOfRange s.sp.toNat))

/-- R74, R75, R70: `PC` goes 2 further on (modulo 2^16) when the condition holds, and stays when it does not
(decisions D22, D23). -/
def Obligations.SkipsOnALiteral : Prop :=
  (RowDecodesTo 0xF000#16 0x3000#16 fun w => .seb (opX w) (opNN w)) ∧
  (RowDecodesTo 0xF000#16 0x4000#16 fun w => .sneb (opX w) (opNN w)) ∧
  ∀ (x : Reg) (nn : Byte) (s : State),
    (∃ t, exec (.seb x nn) s = .next t ∧ Keeps { pc := true } s t ∧
      t.pc.toNat = (if s.reg x = nn then (s.pc.toNat + 2) % 0x10000 else s.pc.toNat)) ∧
    (∃ t, exec (.sneb x nn) s = .next t ∧ Keeps { pc := true } s t ∧
      t.pc.toNat = (if s.reg x ≠ nn then (s.pc.toNat + 2) % 0x10000 else s.pc.toNat))

/-- R76, R77, R70: as for a literal (decisions D22, D23). -/
def Obligations.SkipsOnTwoRegisters : Prop :=
  (RowDecodesTo 0xF00F#16 0x5000#16 fun w => .se (opX w) (opY w)) ∧
  (RowDecodesTo 0xF00F#16 0x9000#16 fun w => .sne (opX w) (opY w)) ∧
  ∀ (x y : Reg) (s : State),
    (∃ t, exec (.se x y) s = .next t ∧ Keeps { pc := true } s t ∧
      t.pc.toNat = (if s.reg x = s.reg y then (s.pc.toNat + 2) % 0x10000 else s.pc.toNat)) ∧
    (∃ t, exec (.sne x y) s = .next t ∧ Keeps { pc := true } s t ∧
      t.pc.toNat = (if s.reg x ≠ s.reg y then (s.pc.toNat + 2) % 0x10000 else s.pc.toNat))

/-- R71's property: a return after a call restores `PC` to the instruction after the call and `SP` to its value before it,
whatever `PC` the return stands at. -/
def Obligations.RetAfterCallRestoresPcAndSp : Prop :=
  ∀ (nnn : Addr12) (s t : State) (p : Word), s.mem.wf = true → StackInv s → exec (.call nnn) s = .next t →
    ∃ u, exec .ret { t with pc := p } = .next u ∧ u.pc = s.pc ∧ u.sp = s.sp

/-- R13, R14, R78: beside the fetch increment only 00EE, 1NNN, 2NNN and the six skips write `PC`, a skip by 2; only 00EE and
2NNN write `SP`, by 2. -/
def Obligations.OnlyControlFlowWritesPcAndSp : Prop :=
  ∀ (i : Instr) (s t : State), exec i s = .next t →
    (t.pc = s.pc ∨ i = .ret ∨ (∃ n, i = .jp n) ∨ (∃ n, i = .call n) ∨ (isSkip i = true ∧ t.pc = s.pc + 2#16)) ∧
    (t.sp = s.sp ∨ (i = .ret ∧ t.sp = s.sp + 2#16) ∨ ((∃ n, i = .call n) ∧ t.sp = s.sp - 2#16))

/-! ## Index register and memory -/

/-- R100. -/
def Obligations.MviLoadsTheIndexRegister : Prop :=
  (RowDecodesTo 0xF000#16 0xA000#16 fun w => .mvi (opNNN w)) ∧
  ∀ (nnn : Addr12) (s : State), ∃ t, exec (.mvi nnn) s = .next t ∧ t.i.toNat = nnn.toNat ∧ Keeps { i := true } s t

/-- R101: `I` becomes `NNN + V0`, with no mask (decision D8), and `PC` keeps the value the fetch gave it. -/
def Obligations.Mvi0AddsV0AndDoesNotJump : Prop :=
  (RowDecodesTo 0xF000#16 0xB000#16 fun w => .mvi0 (opNNN w)) ∧
  ∀ (nnn : Addr12) (s : State), ∃ t, exec (.mvi0 nnn) s = .next t ∧
    t.i.toNat = nnn.toNat + (s.reg 0).toNat ∧ t.pc = s.pc ∧ Keeps { i := true } s t

/-- R102: modulo 2^16, with no 12-bit mask and no flag (decision D8). -/
def Obligations.AdiAddsModulo65536WithoutFlag : Prop :=
  (RowDecodesTo 0xF0FF#16 0xF01E#16 fun w => .adi (opX w)) ∧
  ∀ (x : Reg) (s : State), ∃ t, exec (.adi x) s = .next t ∧
    t.i.toNat = (s.i.toNat + (s.reg x).toNat) % 0x10000 ∧ Keeps { i := true } s t

/-- R103: the digit's address, or the fault when the whole register value is above 0xF. -/
def Obligations.FntAddressesTheDigitsSprite : Prop :=
  (RowDecodesTo 0xF0FF#16 0xF029#16 fun w => .fnt (opX w)) ∧
  ∀ (x : Reg) (s : State),
    ((s.reg x).toNat ≤ 0x0F → ∃ t, exec (.fnt x) s = .next t ∧
      t.i.toNat = 5 * (s.reg x).toNat ∧ Keeps { i := true } s t) ∧
    (0x0F < (s.reg x).toNat → exec (.fnt x) s = .fault (.invalidSpriteDigit (s.reg x)))

/-- R104: hundreds, tens and ones at `I`, `I + 1`, `I + 2`; nothing is stored when one of them is outside memory
(decisions D1, D3). -/
def Obligations.BcdStoresThreeDigits : Prop :=
  (RowDecodesTo 0xF0FF#16 0xF033#16 fun w => .bcd (opX w)) ∧
  ∀ (x : Reg) (s : State),
    (s.mem.wf = true → effAddr s 2 ≤ 0xFFF → ∃ t, exec (.bcd x) s = .next t ∧
      readByte t (effAddr s 0) = .ok (BitVec.ofNat 8 ((s.reg x).toNat / 100)) ∧
      readByte t (effAddr s 1) = .ok (BitVec.ofNat 8 ((s.reg x).toNat / 10 % 10)) ∧
      readByte t (effAddr s 2) = .ok (BitVec.ofNat 8 ((s.reg x).toNat % 10)) ∧
      MemSameOutside (effAddr s 0) 3 s t ∧ Keeps { mem := true } s t) ∧
    (0xFFF < effAddr s 2 → exec (.bcd x) s = .fault (.addressOutOfRange (max s.i.toNat 0x1000)))

/-- R105: `V[0]` to `V[X]` at `I` to `I + X`; nothing is stored when one of them is outside memory, and `I` stays
(decisions D1, D3, D11). -/
def Obligations.StrStoresARangeOfRegisters : Prop :=
  (RowDecodesTo 0xF0FF#16 0xF055#16 fun w => .str (opX w)) ∧
  ∀ (x : Reg) (s : State),
    (s.mem.wf = true → effAddr s x.val ≤ 0xFFF → ∃ t, exec (.str x) s = .next t ∧
      (∀ k : Reg, k ≤ x → readByte t (effAddr s k.val) = .ok (s.reg k)) ∧
      MemSameOutside (effAddr s 0) (x.val + 1) s t ∧ Keeps { mem := true } s t) ∧
    (0xFFF < effAddr s x.val → exec (.str x) s = .fault (.addressOutOfRange (max s.i.toNat 0x1000)))

/-- R106: `V[0]` to `V[X]` from `I` to `I + X`; no register is written when one of them is outside memory, and
`I` stays (decisions D1, D3, D11). -/
def Obligations.LdrLoadsARangeOfRegisters : Prop :=
  (RowDecodesTo 0xF0FF#16 0xF065#16 fun w => .ldr (opX w)) ∧
  ∀ (x : Reg) (s : State),
    (effAddr s x.val ≤ 0xFFF → ∃ t, exec (.ldr x) s = .next t ∧
      (∀ k : Reg, k ≤ x → readByte s (effAddr s k.val) = .ok (t.reg k)) ∧
      Keeps { regs := (List.finRange 16).filter (fun r => r ≤ x) } s t) ∧
    (0xFFF < effAddr s x.val → exec (.ldr x) s = .fault (.addressOutOfRange (max s.i.toNat 0x1000)))

/-- R12: only ANNN, BNNN, FX1E and FX29 write `I`, and `init` among the other actions. -/
def Obligations.OnlyFourInstructionsWriteTheIndexRegister : Prop :=
  (∀ (i : Instr) (s t : State), exec i s = .next t →
    t.i = s.i ∨ (∃ n, i = .mvi n) ∨ (∃ n, i = .mvi0 n) ∨ (∃ x, i = .adi x) ∨ (∃ x, i = .fnt x)) ∧
  ∀ (a : Action) (s : State), a ≠ .step → a ≠ .init → (act a s).1.i = s.i

/-- R18, R30: only 2NNN, FX33 and FX55 write memory, only 00E0 and DXYN write the framebuffer; and outside the engine only
`load_program` and `init` write memory and only `init` the framebuffer.
R113: the host's read of the framebuffer answers the whole grid as it stands and changes no state. -/
def Obligations.OnlyStoresWriteMemoryAndOnlyDrawsTheFramebuffer : Prop :=
  (∀ (i : Instr) (s t : State), exec i s = .next t →
    (t.mem = s.mem ∨ (∃ n, i = .call n) ∨ (∃ x, i = .bcd x) ∨ (∃ x, i = .str x)) ∧
    (t.frame = s.frame ∨ i = .cls ∨ ∃ x y n, i = .drw x y n)) ∧
  (∀ (a : Action) (s : State), a ≠ .step → a ≠ .init →
    ((act a s).1.mem = s.mem ∨ ∃ bs, a = .loadProgram bs) ∧ (act a s).1.frame = s.frame) ∧
  ∀ s : State, act .framebuffer s = (s, .grid s.frame)

/-- R31 to R34: a 16-bit write is big-endian and reads back, byte by byte and as a word; a byte write reads back; every other
byte reads as before, and an access that leaves memory faults and touches nothing (decision D3). That a write keeps memory's
canonical form is the model's own clause (assumption log 12). -/
def Obligations.MemoryReadsBackWhatWasWritten : Prop :=
  ∀ (s : State) (a : Nat), s.mem.wf = true →
    (∀ w : Word, a ≤ 0xFFE → ∃ t, writeWord s a w = .ok t ∧ readWord t a = .ok w ∧
      readByte t a = .ok (BitVec.ofNat 8 (w.toNat / 256)) ∧ readByte t (a + 1) = .ok (BitVec.ofNat 8 (w.toNat % 256)) ∧
      MemSameOutside a 2 s t ∧ t.mem.wf = true ∧ Keeps { mem := true } s t) ∧
    (∀ b : Byte, a ≤ 0xFFF → ∃ t, writeByte s a b = .ok t ∧ readByte t a = .ok b ∧
      MemSameOutside a 1 s t ∧ t.mem.wf = true ∧ Keeps { mem := true } s t) ∧
    (∀ w : Word, 0xFFE < a → writeWord s a w = .error (.addressOutOfRange a) ∧
      readWord s a = .error (.addressOutOfRange a)) ∧
    (∀ b : Byte, 0xFFF < a → writeByte s a b = .error (.addressOutOfRange a) ∧
      readByte s a = .error (.addressOutOfRange a))

/-- R44, derived: two bytes that FX55 stores where the next instruction stands are the word the very next step fetches. -/
def Obligations.AStoreToCodeIsFetchedNext : Prop :=
  ∀ (x : Reg) (s t : State), s.mem.wf = true → 1 ≤ x.val → s.i = s.pc → exec (.str x) s = .next t →
    fetch t = .ok (s.reg 0 ++ s.reg 1)

/-! ## Framebuffer -/

/-- R110: every cell becomes 0, and clearing twice is clearing once. -/
def Obligations.ClsClearsEveryCell : Prop :=
  (RowDecodesTo 0xFFFF#16 0x00E0#16 fun _ => .cls) ∧
  ∀ s : State, ∃ t, exec .cls s = .next t ∧ (∀ x y, t.cell x y = 0#8) ∧ Keeps { frame := true } s t ∧
    exec .cls t = .next t

/-- R111: `N` cells of column `V[X]`, rows `V[Y]` on modulo 32, are XORed with the one byte at `I`; `VF` says whether one of
them became smaller; with `N = 0` nothing but `VF` is written; the column's fault comes before the address's
(decisions D1, D3, D9, D11). -/
def Obligations.DrwXorsOneColumnAndReportsCollision : Prop :=
  (RowDecodesTo 0xF000#16 0xD000#16 fun w => .drw (opX w) (opY w) (opN w)) ∧
  ∀ (x y : Reg) (n : Nat) (s : State), (Instr.drw x y n).wellFormed = true →
    (n = 0 → ∃ t, exec (.drw x y n) s = .next t ∧ t.reg 15 = 0#8 ∧ Keeps { regs := [15] } s t) ∧
    (∀ hx : (s.reg x).toNat < 64, s.i.toNat ≤ 0xFFF → ∃ b t, readByte s s.i.toNat = .ok b ∧
      exec (.drw x y n) s = .next t ∧
      (∀ (c : Fin 64) (r : Fin 32), t.cell c r =
        if c.val = (s.reg x).toNat ∧ ∃ k, k < n ∧ r.val = ((s.reg y).toNat + k) % 32
        then s.cell c r ^^^ b else s.cell c r) ∧
      ((∃ r : Fin 32, (∃ k, k < n ∧ r.val = ((s.reg y).toNat + k) % 32) ∧
          (s.cell ⟨(s.reg x).toNat, hx⟩ r ^^^ b).toNat < (s.cell ⟨(s.reg x).toNat, hx⟩ r).toNat) →
        t.reg 15 = 1#8) ∧
      ((∀ r : Fin 32, (∃ k, k < n ∧ r.val = ((s.reg y).toNat + k) % 32) →
          (s.cell ⟨(s.reg x).toNat, hx⟩ r).toNat ≤ (s.cell ⟨(s.reg x).toNat, hx⟩ r ^^^ b).toNat) →
        t.reg 15 = 0#8) ∧
      Keeps { regs := [15], frame := true } s t) ∧
    (0 < n → 63 < (s.reg x).toNat → exec (.drw x y n) s = .fault (.framebufferOutOfRange (s.reg x))) ∧
    (0 < n → (s.reg x).toNat ≤ 63 → 0xFFF < s.i.toNat → exec (.drw x y n) s = .fault (.addressOutOfRange s.i.toNat))

/-- R111 (f): drawing the same thing twice restores every cell, as long as the coordinates are not read from `VF`, which the
first draw writes. -/
def Obligations.DrawingTwiceRestoresTheFramebuffer : Prop :=
  ∀ (x y : Reg) (n : Nat) (s t : State), (Instr.drw x y n).wellFormed = true → x ≠ 15 → y ≠ 15 →
    exec (.drw x y n) s = .next t → ∃ u, exec (.drw x y n) t = .next u ∧ FrameSame s u

/-! ## Keypad and timers -/

/-- R115, R116, R70: the key whose number is the whole register value, or the fault when that is above 0xF
(decision D10). -/
def Obligations.SkipsOnAKey : Prop :=
  (RowDecodesTo 0xF0FF#16 0xE09E#16 fun w => .skp (opX w)) ∧
  (RowDecodesTo 0xF0FF#16 0xE0A1#16 fun w => .sknp (opX w)) ∧
  ∀ (x : Reg) (s : State),
    (∀ k : Key, (s.reg x).toNat = k.val →
      (∃ t, exec (.skp x) s = .next t ∧ Keeps { pc := true } s t ∧
        t.pc.toNat = (if keyPressed s k then (s.pc.toNat + 2) % 0x10000 else s.pc.toNat)) ∧
      (∃ t, exec (.sknp x) s = .next t ∧ Keeps { pc := true } s t ∧
        t.pc.toNat = (if keyPressed s k then s.pc.toNat else (s.pc.toNat + 2) % 0x10000))) ∧
    (0x0F < (s.reg x).toNat → exec (.skp x) s = .fault (.keyIndexOutOfRange (s.reg x)) ∧
      exec (.sknp x) s = .fault (.keyIndexOutOfRange (s.reg x)))

/-- R117, R119, R120: FX07 reads the delay timer, FX15 writes it, FX18 writes the sound timer. -/
def Obligations.TimerInstructionsReadAndWriteTheTimers : Prop :=
  (RowDecodesTo 0xF0FF#16 0xF007#16 fun w => .gdt (opX w)) ∧
  (RowDecodesTo 0xF0FF#16 0xF015#16 fun w => .sdt (opX w)) ∧
  (RowDecodesTo 0xF0FF#16 0xF018#16 fun w => .sst (opX w)) ∧
  ∀ (x : Reg) (s : State),
    (∃ t, exec (.gdt x) s = .next t ∧ t.reg x = s.dt ∧ Keeps { regs := [x] } s t) ∧
    (∃ t, exec (.sdt x) s = .next t ∧ t.dt = s.reg x ∧ Keeps { dt := true } s t) ∧
    (∃ t, exec (.sst x) s = .next t ∧ t.st = s.reg x ∧ Keeps { st := true } s t)

/-- R118: only `mode` is written. -/
def Obligations.KeyEntersTheWait : Prop :=
  (RowDecodesTo 0xF0FF#16 0xF00A#16 fun w => .key (opX w)) ∧
  ∀ (x : Reg) (s : State), ∃ t, exec (.key x) s = .next t ∧ t.mode = .waitingForKey ∧ Keeps { mode := true } s t

/-- R118's property, with R22 and R145: the step that runs FX0A waits, `PC` 2 further on; the notification that comes next puts
the key's index in the register FX0A names and ends the wait, and changes nothing else
(decision D21). -/
def Obligations.KeyThenNotificationDepositsTheKey : Prop :=
  ∀ (x : Reg) (s : State), Fetches s (.key x) →
    ∃ t, engineStep s = .next t ∧ t.mode = .waitingForKey ∧ t.pc.toNat = s.pc.toNat + 2 ∧
      Keeps { pc := true, mode := true } s t ∧
      ∀ k : Key, ∃ u, act (.notifyKeyPressed k) t = (u, .ok) ∧ (u.reg x).toNat = k.val ∧ u.mode = .running ∧
        Keeps { regs := [x], mode := true } t u

/-- R145: a notification changes nothing in RUNNING; in WAITING_FOR_KEY it writes the register named by bits 11..8 of the word
at `PC - 2`, and `mode`, and nothing else; and in a state that meets the invariant that word can be read
(derived). The rest is decisions D16, D19, D21. -/
def Obligations.NotificationActsOnlyWhileWaiting : Prop :=
  ∀ (k : Key) (s : State),
    (s.mode = .running → act (.notifyKeyPressed k) s = (s, .ok)) ∧
    (∀ w : Word, s.mode = .waitingForKey → readWord s (s.pc - 2#16).toNat = .ok w →
      ∃ u, act (.notifyKeyPressed k) s = (u, .ok) ∧
        (∀ r : Reg, r.val = w.toNat / 256 % 16 → (u.reg r).toNat = k.val ∧ Keeps { regs := [r], mode := true } s u) ∧
        u.mode = .running) ∧
    (MachineInv s → s.mode = .waitingForKey → ∃ w, readWord s (s.pc - 2#16).toNat = .ok w)

/-- R15: only a step that runs FX0A enters the wait, and only a notification or `init` leaves it. -/
def Obligations.OnlyKeyEntersAndOnlyNotificationOrInitLeavesTheWait : Prop :=
  ∀ (a : Action) (s : State),
    (s.mode = .running → (act a s).1.mode = .waitingForKey → a = .step ∧ ∃ x, Fetches s (.key x)) ∧
    (s.mode = .waitingForKey → (act a s).1.mode = .running → (∃ k, a = .notifyKeyPressed k) ∨ a = .init)

/-- R150: each timer counts down by one and stops at 0. The stop is PRESUMED (assumption log 7), as the spec itself marks
it. -/
def Obligations.TicksCountDownAndStopAtZero : Prop :=
  ∀ s : State,
    (∃ t, act .tickDelay s = (t, .ok) ∧ t.dt.toNat = s.dt.toNat - 1 ∧ Keeps { dt := true } s t) ∧
    (∃ t, act .tickSound s = (t, .ok) ∧ t.st.toNat = s.st.toNat - 1 ∧ Keeps { st := true } s t)

/-- R19, R147, decision D19: the key state changes by the input layer's action, for that key alone, and by no instruction and no other
action of any agent. -/
def Obligations.OnlyTheInputLayerChangesTheKeyState : Prop :=
  (∀ (k : Key) (b : Bool) (s : State), ∃ t, act (.keyChange k b) s = (t, .ok) ∧
    (∀ j : Key, keyPressed t j = if j = k then b else keyPressed s j) ∧ Keeps { keys := true } s t) ∧
  ∀ (a : Action) (s : State), (∀ k b, a ≠ .keyChange k b) → (act a s).1.keys = s.keys

/-! ## Reset, loading, runs -/

/-- R23: the reset values the spec gives. The 80 bytes of `FONT` are a parameter (assumption log 2): the statement names the
table and no byte of it. That the timers are 0 is decision D12. -/
def Obligations.ResetHasTheGivenValues : Prop :=
  (∀ r : Reg, State.reset.reg r = 0#8) ∧ State.reset.i.toNat = 0 ∧ State.reset.pc.toNat = 0x200 ∧
  State.reset.sp.toNat = 0xEFE ∧ State.reset.mode = .running ∧
  (∀ a, a < 80 → readByte State.reset a = .ok (Config.font.getD a 0#8)) ∧
  (∀ a, 80 ≤ a → a ≤ 0xFFF → readByte State.reset a = .ok 0#8) ∧
  (∀ x y, State.reset.cell x y = 0#8) ∧ State.reset.dt = 0#8 ∧ State.reset.st = 0#8 ∧ Config.font.length = 80

/-- R160, R161: `init` resets from any state, leaves the key state, and the first step after it, with no program loaded,
answers `InvalidOpcode(0x0000)` (derived). That the timers are 0 is decision D12. -/
def Obligations.InitResetsFromAnyState : Prop :=
  ∀ s : State, ∃ t, act .init s = (t, .ok) ∧ (∀ r : Reg, t.reg r = 0#8) ∧ t.i = 0#16 ∧ t.pc.toNat = 0x200 ∧
    t.sp.toNat = 0xEFE ∧ t.mode = .running ∧ (∀ a, readByte t a = readByte State.reset a) ∧
    (∀ x y, t.cell x y = 0#8) ∧ t.dt = 0#8 ∧ t.st = 0#8 ∧ t.keys = s.keys ∧
    engineStep t = .fault (.invalidOpcode 0x0000#16)

/-- R162: byte `k` of the program is at 0x200 + `k`, unswapped, and nothing else changes; a program that is too large changes
nothing. -/
def Obligations.LoadProgramCopiesTheBytesOrNothing : Prop :=
  ∀ (bytes : List Byte) (s : State), s.mem.wf = true →
    (bytes.length ≤ Config.maxProgramBytes → ∃ t, act (.loadProgram bytes) s = (t, .ok) ∧
      (∀ k (h : k < bytes.length), readByte t (0x200 + k) = .ok bytes[k]) ∧
      MemSameOutside 0x200 bytes.length s t ∧ Keeps { mem := true } s t) ∧
    (Config.maxProgramBytes < bytes.length → act (.loadProgram bytes) s = (s, .loadError .tooLarge))

/-- R164, decision D18: at a jump to itself every further step leaves all state as it is. -/
def Obligations.AJumpToItselfChangesNothing : Prop :=
  ∀ (n : Nat) (s : State), IsFinal s → runActions (List.replicate n .step) s = (s, List.replicate n .ok)

/-- R23, R25: the invariant holds at reset. Its memory clause is the model's own, the canonical form
(assumption log 12). -/
def Obligations.ResetMeetsTheInvariant : Prop := MachineInv State.reset ∧ stackDepth State.reset = 0

/-- From every state that meets the invariant, a step of the machine, whichever agent moves, gives a state that meets it. The
stack's clause is R25 (derived), with `STACK_LIMIT` the parameter of assumption log 4. The wait's clause follows from R118,
R55 and R145 (derived there). The canonical form of memory and the schedule that says who moves are the model's own
(assumption logs 12 and 5). -/
def Obligations.EveryStepKeepsTheInvariant : Prop := ∀ s t : State, MachineInv s → step s = .next t → MachineInv t

/-- R25 (derived): every state that a run reaches, by any actions of the agents in any order, meets the invariant, has between
0 and 48 return addresses on the stack, and no notification faults in it (R145, derived). The bound 48 rests on
`STACK_LIMIT` being 0xEA0 (assumption log 4), and the invariant's memory clause is the model's own (assumption log 12). -/
def Obligations.EveryReachableStateMeetsTheInvariant : Prop :=
  ∀ s : State, Reachable s → MachineInv s ∧ 2 * stackDepth s = 0xEFE - s.sp.toNat ∧ stackDepth s ≤ 48 ∧
    ∀ k, (act (.notifyKeyPressed k) s).2 = .ok
end

