-- ==== Sys2Proof/Laws/Decode.lean ====
section
/-! SUPPORT. The fields of an encoded word, format by format, and a word put together again from its fields
(spec/30_encoding.md R51, R52). -/

namespace Sys2Proof

/-! ### The fields of an encoded word -/

theorem extract_high {v w : Nat} (a : BitVec v) (b : BitVec w) : (a ++ b).extractLsb' w v = a :=
  BitVec.extractLsb'_append_eq_left

theorem extract_low {v w : Nat} (a : BitVec v) (b : BitVec w) : (a ++ b).extractLsb' 0 w = b :=
  BitVec.extractLsb'_append_eq_right

theorem extract_extract {v s l s' l' : Nat} (a : BitVec v) (h : s' + l' ≤ l) :
    (a.extractLsb' s l).extractLsb' s' l' = a.extractLsb' (s + s') l' := by
  ext k hk
  simp only [BitVec.getElem_extractLsb', BitVec.getLsbD_extractLsb', Nat.add_assoc]
  rw [decide_eq_true (by omega), Bool.true_and]

/-- The high byte of a word holds `G` and `X`. -/
theorem fields_of_high (w : Word) :
    opG w = ((w.extractLsb' 8 8).extractLsb' 4 4).toNat ∧ opX w = ((w.extractLsb' 8 8).extractLsb' 0 4).toFin := by
  rw [extract_extract _ (by omega), extract_extract _ (by omega)]; exact ⟨rfl, rfl⟩

/-- The low byte of a word holds `Y` and `N`. -/
theorem fields_of_low (w : Word) :
    opY w = ((w.extractLsb' 0 8).extractLsb' 4 4).toFin ∧ opN w = ((w.extractLsb' 0 8).extractLsb' 0 4).toNat := by
  rw [extract_extract _ (by omega), extract_extract _ (by omega)]; exact ⟨rfl, rfl⟩

@[simp] theorem opG_encodeXNN (g : BitVec 4) (x : Reg) (nn : Byte) : opG (encodeXNN g x nn) = g.toNat := by
  rw [(fields_of_high _).1, encodeXNN, extract_high (g ++ regBits x) nn, extract_high g (regBits x)]

@[simp] theorem opX_encodeXNN (g : BitVec 4) (x : Reg) (nn : Byte) : opX (encodeXNN g x nn) = x := by
  rw [(fields_of_high _).2, encodeXNN, extract_high (g ++ regBits x) nn, extract_low g (regBits x)]; rfl

@[simp] theorem opNN_encodeXNN (g : BitVec 4) (x : Reg) (nn : Byte) : opNN (encodeXNN g x nn) = nn :=
  extract_low (g ++ regBits x) nn

@[simp] theorem opG_encodeX (g : BitVec 4) (x : Reg) (nn : Byte) : opG (encodeX g x nn) = g.toNat := opG_encodeXNN g x nn

@[simp] theorem opX_encodeX (g : BitVec 4) (x : Reg) (nn : Byte) : opX (encodeX g x nn) = x := opX_encodeXNN g x nn

@[simp] theorem opNN_encodeX (g : BitVec 4) (x : Reg) (nn : Byte) : opNN (encodeX g x nn) = nn := opNN_encodeXNN g x nn

@[simp] theorem opG_encodeNNN (g : BitVec 4) (nnn : Addr12) : opG (encodeNNN g nnn) = g.toNat :=
  congrArg BitVec.toNat (extract_high g nnn)

@[simp] theorem opNNN_encodeNNN (g : BitVec 4) (nnn : Addr12) : opNNN (encodeNNN g nnn) = nnn := extract_low g nnn

@[simp] theorem opG_encodeXYN (g : BitVec 4) (x y : Reg) (n : BitVec 4) : opG (encodeXYN g x y n) = g.toNat :=
  opG_encodeXNN g x (regBits y ++ n)

@[simp] theorem opX_encodeXYN (g : BitVec 4) (x y : Reg) (n : BitVec 4) : opX (encodeXYN g x y n) = x :=
  opX_encodeXNN g x (regBits y ++ n)

@[simp] theorem opY_encodeXYN (g : BitVec 4) (x y : Reg) (n : BitVec 4) : opY (encodeXYN g x y n) = y := by
  rw [(fields_of_low _).1, encodeXYN, extract_low (g ++ regBits x) (regBits y ++ n), extract_high (regBits y) n]; rfl

@[simp] theorem opN_encodeXYN (g : BitVec 4) (x y : Reg) (n : BitVec 4) : opN (encodeXYN g x y n) = n.toNat := by
  rw [(fields_of_low _).2, encodeXYN, extract_low (g ++ regBits x) (regBits y ++ n), extract_low (regBits y) n]

/-! ### A word from its fields -/

theorem append_extract {v w : Nat} (a : BitVec (v + w)) : a.extractLsb' w v ++ a.extractLsb' 0 w = a := by
  ext k hk
  simp only [BitVec.getElem_append, BitVec.getElem_extractLsb']
  split
  · rw [Nat.zero_add, BitVec.getLsbD_eq_getElem hk]
  · rename_i h; rw [show w + (k - w) = k by omega, BitVec.getLsbD_eq_getElem hk]

/-- The group of a word as its 4 bits. -/
theorem group_bits {w : Word} {g : BitVec 4} (h : opG w = g.toNat) : w.extractLsb' 12 4 = g := BitVec.eq_of_toNat_eq h

/-- The high byte from the group and `X`. -/
theorem high_byte {w : Word} {g : BitVec 4} (h : opG w = g.toNat) : g ++ regBits (opX w) = w.extractLsb' 8 8 := by
  rw [← group_bits h]
  have := append_extract (v := 4) (w := 4) (w.extractLsb' 8 8)
  rw [extract_extract _ (by omega), extract_extract _ (by omega)] at this
  exact this

/-- The low byte from `Y` and `N`. -/
theorem low_byte (w : Word) : regBits (opY w) ++ w.extractLsb' 0 4 = opNN w := by
  have := append_extract (v := 4) (w := 4) (w.extractLsb' 0 8)
  rw [extract_extract _ (by omega), extract_extract _ (by omega)] at this
  exact this

theorem encodeXNN_fields {w : Word} {g : BitVec 4} (h : opG w = g.toNat) : encodeXNN g (opX w) (opNN w) = w := by
  rw [encodeXNN, high_byte h]; exact append_extract (v := 8) (w := 8) w

theorem encodeNNN_fields {w : Word} {g : BitVec 4} (h : opG w = g.toNat) : encodeNNN g (opNNN w) = w := by
  rw [encodeNNN, ← group_bits h]; exact append_extract (v := 4) (w := 12) w

theorem encodeXYN_fields {w : Word} {g n : BitVec 4} (h : opG w = g.toNat) (hn : opN w = n.toNat) :
    encodeXYN g (opX w) (opY w) n = w := by
  have : w.extractLsb' 0 4 = n := BitVec.eq_of_toNat_eq hn
  rw [encodeXYN, ← this, low_byte w]; exact encodeXNN_fields h

theorem encodeX_fields {w : Word} {g : BitVec 4} {sub : Byte} (h : opG w = g.toNat) (hs : (opNN w).toNat = sub.toNat) :
    encodeX g (opX w) sub = w := by
  rw [← BitVec.eq_of_toNat_eq hs]; exact encodeXNN_fields h

/-! ### The fields a mask fixes (R62) -/

/-- A mask that keeps the group fixes the group. -/
theorem opG_of_mask {w m v : Word} (h : w &&& m = v) (hm : m.extractLsb' 12 4 = 0xF#4) :
    opG w = (v.extractLsb' 12 4).toNat := by
  have := congrArg (BitVec.extractLsb' 12 4) h
  rw [BitVec.extractLsb'_and, hm, show 0xF#4 = BitVec.allOnes 4 from rfl, BitVec.and_allOnes] at this
  rw [opG, this]

/-- A mask that keeps the low nibble fixes the low nibble. -/
theorem opN_of_mask {w m v : Word} (h : w &&& m = v) (hm : m.extractLsb' 0 4 = 0xF#4) :
    opN w = (v.extractLsb' 0 4).toNat := by
  have := congrArg (BitVec.extractLsb' 0 4) h
  rw [BitVec.extractLsb'_and, hm, show 0xF#4 = BitVec.allOnes 4 from rfl, BitVec.and_allOnes] at this
  rw [opN, this]

/-- A mask that keeps the low byte fixes the low byte. -/
theorem opNN_of_mask {w m v : Word} (h : w &&& m = v) (hm : m.extractLsb' 0 8 = 0xFF#8) :
    opNN w = v.extractLsb' 0 8 := by
  have := congrArg (BitVec.extractLsb' 0 8) h
  rw [BitVec.extractLsb'_and, hm, show 0xFF#8 = BitVec.allOnes 8 from rfl, BitVec.and_allOnes] at this
  exact this

/-- The row count of DXYN fits its field. -/
theorem opN_lt (w : Word) : opN w < 16 := (w.extractLsb' 0 4).isLt

end Sys2Proof
end

