-- ==== Sys2Proof/Laws/Memory.lean ====
section
/-! SUPPORT. The laws of memory as data: a byte read after a write, the canonical form kept by every memory operation, and
equal memories are equal lists. -/

namespace Sys2Proof.Machine

@[simp] theorem Memory.get_nil (a : Nat) : Memory.get [] a = Memory.background a := rfl

theorem Memory.get_cons (k : Nat) (b : Byte) (m : Memory) (a : Nat) :
    Memory.get ((k, b) :: m) a = if k = a then b else m.get a := rfl

/-- Below every listed address, a canonical memory reads as its reset contents. -/
theorem Memory.get_below {lo a : Nat} {m : Memory} (h : m.wfFrom lo = true) (ha : a < lo) :
    m.get a = Memory.background a := by
  induction m generalizing lo with
  | nil => rfl
  | cons e m ih =>
    obtain ⟨k, b⟩ := e
    simp only [Memory.wfFrom, Bool.and_eq_true, decide_eq_true_eq] at h
    rw [Memory.get_cons, if_neg (by omega)]
    exact ih h.2 (by omega)

/-- A canonical form from one address on is one from any lower address on. -/
theorem Memory.wfFrom_mono {lo lo' : Nat} {m : Memory} (h : m.wfFrom lo = true) (hl : lo' ≤ lo) :
    m.wfFrom lo' = true := by
  cases m with
  | nil => rfl
  | cons e m =>
    obtain ⟨k, b⟩ := e
    simp only [Memory.wfFrom, Bool.and_eq_true, decide_eq_true_eq] at h ⊢
    exact ⟨⟨⟨by omega, h.1.1.2⟩, h.1.2⟩, h.2⟩

/-- Putting a byte in front, when nothing listed reaches down to its address. -/
theorem Memory.get_put {m : Memory} {a : Nat} (b : Byte) (h : m.wfFrom (a + 1) = true) (c : Nat) :
    (m.put a b).get c = if c = a then b else m.get c := by
  unfold Memory.put
  split
  · rename_i hb
    split
    · rename_i hc; subst hc; rw [Memory.get_below h (by omega), hb]
    · rfl
  · rw [Memory.get_cons]; simp [eq_comm]

theorem Memory.wfFrom_put {m : Memory} {lo a : Nat} (b : Byte) (hl : lo ≤ a) (ha : a < Config.memBytes)
    (h : m.wfFrom (a + 1) = true) : (m.put a b).wfFrom lo = true := by
  unfold Memory.put
  split
  · exact Memory.wfFrom_mono h (by omega)
  · rename_i hb; simp [Memory.wfFrom, hl, ha, hb, h]

/-- A write keeps the canonical form from `lo` on. -/
theorem Memory.wfFrom_set {m : Memory} {lo a : Nat} (b : Byte) (hl : lo ≤ a) (ha : a < Config.memBytes)
    (h : m.wfFrom lo = true) : (m.set a b).wfFrom lo = true := by
  induction m generalizing lo with
  | nil => exact Memory.wfFrom_put b hl ha rfl
  | cons e m ih =>
    obtain ⟨k, c⟩ := e
    have h' := h
    simp only [Memory.wfFrom, Bool.and_eq_true, decide_eq_true_eq] at h
    obtain ⟨⟨⟨hk, hkm⟩, hc⟩, hm⟩ := h
    unfold Memory.set
    split
    · apply Memory.wfFrom_put b hl ha
      simp only [Memory.wfFrom, Bool.and_eq_true, decide_eq_true_eq]
      exact ⟨⟨⟨by omega, hkm⟩, hc⟩, hm⟩
    · split
      · rename_i heq; subst heq; exact Memory.wfFrom_put b hl ha hm
      · simp only [Memory.wfFrom, Bool.and_eq_true, decide_eq_true_eq]
        exact ⟨⟨⟨hk, hkm⟩, hc⟩, ih (by omega) hm⟩

/-- A write keeps the canonical form. -/
theorem Memory.wf_set {m : Memory} {a : Nat} (b : Byte) (ha : a < Config.memBytes) (h : m.wf = true) :
    (m.set a b).wf = true := Memory.wfFrom_set b (Nat.zero_le a) ha h

/-- A read after a write, from `lo` on. -/
theorem Memory.get_set_from {m : Memory} {lo : Nat} (a : Nat) (b : Byte) (h : m.wfFrom lo = true) (c : Nat) :
    (m.set a b).get c = if c = a then b else m.get c := by
  induction m generalizing lo with
  | nil => exact Memory.get_put b rfl c
  | cons e m ih =>
    obtain ⟨k, d⟩ := e
    simp only [Memory.wfFrom, Bool.and_eq_true, decide_eq_true_eq] at h
    obtain ⟨⟨⟨_, hkm⟩, hd⟩, hm⟩ := h
    unfold Memory.set
    split
    · apply Memory.get_put
      simp only [Memory.wfFrom, Bool.and_eq_true, decide_eq_true_eq]
      exact ⟨⟨⟨by omega, hkm⟩, hd⟩, hm⟩
    · split
      · rename_i heq
        subst heq
        rw [Memory.get_put b hm, Memory.get_cons]
        by_cases hc : c = a
        · simp [hc]
        · rw [if_neg hc, if_neg hc, if_neg (fun e => hc e.symm)]
      · rw [Memory.get_cons, Memory.get_cons, ih hm]
        by_cases hc : k = c
        · subst hc; rename_i h1; rw [if_pos rfl, if_pos rfl, if_neg (fun e => h1 e.symm)]
        · simp [hc]

/-- A read after a write of the same cell gives the byte written, and every other cell reads as before (20_memory.md
R33, R34). -/
theorem Memory.get_set {m : Memory} (a : Nat) (b : Byte) (h : m.wf = true) (c : Nat) :
    (m.set a b).get c = if c = a then b else m.get c := Memory.get_set_from a b h c

/-- A row of writes keeps the canonical form. -/
theorem Memory.wf_setBytes {m : Memory} {a : Nat} (bs : List Byte) (ha : a + bs.length ≤ Config.memBytes)
    (h : m.wf = true) : (m.setBytes a bs).wf = true := by
  induction bs generalizing m a with
  | nil => exact h
  | cons b bs ih =>
    simp only [List.length_cons] at ha
    exact ih (by omega) (Memory.wf_set b (by omega) h)

/-- A read after a row of writes: the bytes in the cells written, every other cell as before. -/
theorem Memory.get_setBytes {m : Memory} (a : Nat) (bs : List Byte) (ha : a + bs.length ≤ Config.memBytes)
    (h : m.wf = true) (c : Nat) : (m.setBytes a bs).get c = if a ≤ c then bs.getD (c - a) (m.get c) else m.get c := by
  induction bs generalizing m a with
  | nil => simp [Memory.setBytes]
  | cons b bs ih =>
    simp only [List.length_cons] at ha
    rw [Memory.setBytes, ih (a + 1) (by omega) (Memory.wf_set b (by omega) h), Memory.get_set a b h]
    rcases Nat.lt_trichotomy c a with hc | hc | hc
    · rw [if_neg (by omega), if_neg (by omega), if_neg (by omega)]
    · subst hc; simp
    · obtain ⟨d, hd⟩ : ∃ d, c - a = d + 1 := ⟨c - a - 1, by omega⟩
      rw [if_pos (by omega), if_neg (by omega), if_pos (by omega), hd, List.getD_cons_succ,
        show c - (a + 1) = d by omega]

/-- Equal memories are equal lists, from `lo` on. -/
theorem Memory.ext_from {m m' : Memory} {lo : Nat} (h : m.wfFrom lo = true) (h' : m'.wfFrom lo = true)
    (e : ∀ a, m.get a = m'.get a) : m = m' := by
  induction m generalizing m' lo with
  | nil =>
    cases m' with
    | nil => rfl
    | cons x m' =>
      obtain ⟨k, b⟩ := x
      simp only [Memory.wfFrom, Bool.and_eq_true, decide_eq_true_eq] at h'
      have := e k
      rw [Memory.get_cons, if_pos rfl] at this
      exact absurd this.symm h'.1.2
  | cons x m ih =>
    obtain ⟨k, b⟩ := x
    have hx := h
    simp only [Memory.wfFrom, Bool.and_eq_true, decide_eq_true_eq] at h
    cases m' with
    | nil =>
      have := e k
      rw [Memory.get_cons, if_pos rfl] at this
      exact absurd this h.1.2
    | cons x' m' =>
      obtain ⟨k', b'⟩ := x'
      have hx' := h'
      simp only [Memory.wfFrom, Bool.and_eq_true, decide_eq_true_eq] at h'
      have hk : k = k' := by
        rcases Nat.lt_trichotomy k k' with hl | hl | hl
        · have := e k
          rw [Memory.get_cons, if_pos rfl, Memory.get_cons, if_neg (by omega),
            Memory.get_below h'.2 (by omega)] at this
          exact absurd this h.1.2
        · exact hl
        · have := e k'
          rw [Memory.get_cons, if_neg (by omega), Memory.get_cons, if_pos rfl,
            Memory.get_below h.2 (by omega)] at this
          exact absurd this.symm h'.1.2
      subst hk
      have hb : b = b' := by simpa [Memory.get_cons] using e k
      subst hb
      congr 1
      refine ih h.2 h'.2 fun a => ?_
      by_cases ha : k = a
      · subst ha; rw [Memory.get_below h.2 (by omega), Memory.get_below h'.2 (by omega)]
      · simpa [Memory.get_cons, ha] using e a

/-- Two canonical memories that read alike are the same data. -/
theorem Memory.ext {m m' : Memory} (h : m.wf = true) (h' : m'.wf = true) (e : ∀ a, m.get a = m'.get a) : m = m' :=
  Memory.ext_from h h' e

end Sys2Proof.Machine
end

