-- ==== Sys2Proof/Laws/State.lean ====
section
/-! SUPPORT. What each update of the state does to each field, one lemma per field per update, so that no proof unfolds a
record update. -/

namespace Sys2Proof.Machine

variable (s : State)

/-! ### setReg -/

@[simp] theorem setReg_v (x : Reg) (b : Byte) : (s.setReg x b).v = s.v.set x b := rfl
@[simp] theorem setReg_i (x : Reg) (b : Byte) : (s.setReg x b).i = s.i := rfl
@[simp] theorem setReg_pc (x : Reg) (b : Byte) : (s.setReg x b).pc = s.pc := rfl
@[simp] theorem setReg_sp (x : Reg) (b : Byte) : (s.setReg x b).sp = s.sp := rfl
@[simp] theorem setReg_mode (x : Reg) (b : Byte) : (s.setReg x b).mode = s.mode := rfl
@[simp] theorem setReg_mem (x : Reg) (b : Byte) : (s.setReg x b).mem = s.mem := rfl
@[simp] theorem setReg_frame (x : Reg) (b : Byte) : (s.setReg x b).frame = s.frame := rfl
@[simp] theorem setReg_keys (x : Reg) (b : Byte) : (s.setReg x b).keys = s.keys := rfl
@[simp] theorem setReg_dt (x : Reg) (b : Byte) : (s.setReg x b).dt = s.dt := rfl
@[simp] theorem setReg_st (x : Reg) (b : Byte) : (s.setReg x b).st = s.st := rfl
@[simp] theorem setReg_draws (x : Reg) (b : Byte) : (s.setReg x b).draws = s.draws := rfl
@[simp] theorem setReg_schedule (x : Reg) (b : Byte) : (s.setReg x b).schedule = s.schedule := rfl

/-! ### advancePc -/

@[simp] theorem advancePc_v : (advancePc s).v = s.v := rfl
@[simp] theorem advancePc_i : (advancePc s).i = s.i := rfl
@[simp] theorem advancePc_pc : (advancePc s).pc = s.pc + 2#16 := rfl
@[simp] theorem advancePc_sp : (advancePc s).sp = s.sp := rfl
@[simp] theorem advancePc_mode : (advancePc s).mode = s.mode := rfl
@[simp] theorem advancePc_mem : (advancePc s).mem = s.mem := rfl
@[simp] theorem advancePc_frame : (advancePc s).frame = s.frame := rfl
@[simp] theorem advancePc_keys : (advancePc s).keys = s.keys := rfl
@[simp] theorem advancePc_dt : (advancePc s).dt = s.dt := rfl
@[simp] theorem advancePc_st : (advancePc s).st = s.st := rfl
@[simp] theorem advancePc_draws : (advancePc s).draws = s.draws := rfl
@[simp] theorem advancePc_schedule : (advancePc s).schedule = s.schedule := rfl

/-! ### skip -/

@[simp] theorem skip_v : (skip s).v = s.v := rfl
@[simp] theorem skip_i : (skip s).i = s.i := rfl
@[simp] theorem skip_pc : (skip s).pc = s.pc + 2#16 := rfl
@[simp] theorem skip_sp : (skip s).sp = s.sp := rfl
@[simp] theorem skip_mode : (skip s).mode = s.mode := rfl
@[simp] theorem skip_mem : (skip s).mem = s.mem := rfl
@[simp] theorem skip_frame : (skip s).frame = s.frame := rfl
@[simp] theorem skip_keys : (skip s).keys = s.keys := rfl
@[simp] theorem skip_dt : (skip s).dt = s.dt := rfl
@[simp] theorem skip_st : (skip s).st = s.st := rfl
@[simp] theorem skip_draws : (skip s).draws = s.draws := rfl
@[simp] theorem skip_schedule : (skip s).schedule = s.schedule := rfl

/-! ### jumpTo -/

@[simp] theorem jumpTo_v (w : Word) : (jumpTo s w).v = s.v := rfl
@[simp] theorem jumpTo_i (w : Word) : (jumpTo s w).i = s.i := rfl
@[simp] theorem jumpTo_pc (w : Word) : (jumpTo s w).pc = w := rfl
@[simp] theorem jumpTo_sp (w : Word) : (jumpTo s w).sp = s.sp := rfl
@[simp] theorem jumpTo_mode (w : Word) : (jumpTo s w).mode = s.mode := rfl
@[simp] theorem jumpTo_mem (w : Word) : (jumpTo s w).mem = s.mem := rfl
@[simp] theorem jumpTo_frame (w : Word) : (jumpTo s w).frame = s.frame := rfl
@[simp] theorem jumpTo_keys (w : Word) : (jumpTo s w).keys = s.keys := rfl
@[simp] theorem jumpTo_dt (w : Word) : (jumpTo s w).dt = s.dt := rfl
@[simp] theorem jumpTo_st (w : Word) : (jumpTo s w).st = s.st := rfl
@[simp] theorem jumpTo_draws (w : Word) : (jumpTo s w).draws = s.draws := rfl
@[simp] theorem jumpTo_schedule (w : Word) : (jumpTo s w).schedule = s.schedule := rfl

/-! ### setI -/

@[simp] theorem setI_v (w : Word) : (setI s w).v = s.v := rfl
@[simp] theorem setI_i (w : Word) : (setI s w).i = w := rfl
@[simp] theorem setI_pc (w : Word) : (setI s w).pc = s.pc := rfl
@[simp] theorem setI_sp (w : Word) : (setI s w).sp = s.sp := rfl
@[simp] theorem setI_mode (w : Word) : (setI s w).mode = s.mode := rfl
@[simp] theorem setI_mem (w : Word) : (setI s w).mem = s.mem := rfl
@[simp] theorem setI_frame (w : Word) : (setI s w).frame = s.frame := rfl
@[simp] theorem setI_keys (w : Word) : (setI s w).keys = s.keys := rfl
@[simp] theorem setI_dt (w : Word) : (setI s w).dt = s.dt := rfl
@[simp] theorem setI_st (w : Word) : (setI s w).st = s.st := rfl
@[simp] theorem setI_draws (w : Word) : (setI s w).draws = s.draws := rfl
@[simp] theorem setI_schedule (w : Word) : (setI s w).schedule = s.schedule := rfl

/-! ### setCell -/

@[simp] theorem setCell_v (x : Fin 64) (y : Fin 32) (b : Byte) : (s.setCell x y b).v = s.v := rfl
@[simp] theorem setCell_i (x : Fin 64) (y : Fin 32) (b : Byte) : (s.setCell x y b).i = s.i := rfl
@[simp] theorem setCell_pc (x : Fin 64) (y : Fin 32) (b : Byte) : (s.setCell x y b).pc = s.pc := rfl
@[simp] theorem setCell_sp (x : Fin 64) (y : Fin 32) (b : Byte) : (s.setCell x y b).sp = s.sp := rfl
@[simp] theorem setCell_mode (x : Fin 64) (y : Fin 32) (b : Byte) : (s.setCell x y b).mode = s.mode := rfl
@[simp] theorem setCell_mem (x : Fin 64) (y : Fin 32) (b : Byte) : (s.setCell x y b).mem = s.mem := rfl
@[simp] theorem setCell_frame (x : Fin 64) (y : Fin 32) (b : Byte) : (s.setCell x y b).frame = s.frame.set x (s.frame[x].set y b) := rfl
@[simp] theorem setCell_keys (x : Fin 64) (y : Fin 32) (b : Byte) : (s.setCell x y b).keys = s.keys := rfl
@[simp] theorem setCell_dt (x : Fin 64) (y : Fin 32) (b : Byte) : (s.setCell x y b).dt = s.dt := rfl
@[simp] theorem setCell_st (x : Fin 64) (y : Fin 32) (b : Byte) : (s.setCell x y b).st = s.st := rfl
@[simp] theorem setCell_draws (x : Fin 64) (y : Fin 32) (b : Byte) : (s.setCell x y b).draws = s.draws := rfl
@[simp] theorem setCell_schedule (x : Fin 64) (y : Fin 32) (b : Byte) : (s.setCell x y b).schedule = s.schedule := rfl

/-! ### clearFrame -/

@[simp] theorem clearFrame_v : (s.clearFrame).v = s.v := rfl
@[simp] theorem clearFrame_i : (s.clearFrame).i = s.i := rfl
@[simp] theorem clearFrame_pc : (s.clearFrame).pc = s.pc := rfl
@[simp] theorem clearFrame_sp : (s.clearFrame).sp = s.sp := rfl
@[simp] theorem clearFrame_mode : (s.clearFrame).mode = s.mode := rfl
@[simp] theorem clearFrame_mem : (s.clearFrame).mem = s.mem := rfl
@[simp] theorem clearFrame_frame : (s.clearFrame).frame = Vector.replicate 64 (Vector.replicate 32 0#8) := rfl
@[simp] theorem clearFrame_keys : (s.clearFrame).keys = s.keys := rfl
@[simp] theorem clearFrame_dt : (s.clearFrame).dt = s.dt := rfl
@[simp] theorem clearFrame_st : (s.clearFrame).st = s.st := rfl
@[simp] theorem clearFrame_draws : (s.clearFrame).draws = s.draws := rfl
@[simp] theorem clearFrame_schedule : (s.clearFrame).schedule = s.schedule := rfl

/-! ### delaySet -/

@[simp] theorem delaySet_v (b : Byte) : (delaySet s b).v = s.v := rfl
@[simp] theorem delaySet_i (b : Byte) : (delaySet s b).i = s.i := rfl
@[simp] theorem delaySet_pc (b : Byte) : (delaySet s b).pc = s.pc := rfl
@[simp] theorem delaySet_sp (b : Byte) : (delaySet s b).sp = s.sp := rfl
@[simp] theorem delaySet_mode (b : Byte) : (delaySet s b).mode = s.mode := rfl
@[simp] theorem delaySet_mem (b : Byte) : (delaySet s b).mem = s.mem := rfl
@[simp] theorem delaySet_frame (b : Byte) : (delaySet s b).frame = s.frame := rfl
@[simp] theorem delaySet_keys (b : Byte) : (delaySet s b).keys = s.keys := rfl
@[simp] theorem delaySet_dt (b : Byte) : (delaySet s b).dt = b := rfl
@[simp] theorem delaySet_st (b : Byte) : (delaySet s b).st = s.st := rfl
@[simp] theorem delaySet_draws (b : Byte) : (delaySet s b).draws = s.draws := rfl
@[simp] theorem delaySet_schedule (b : Byte) : (delaySet s b).schedule = s.schedule := rfl

/-! ### soundSet -/

@[simp] theorem soundSet_v (b : Byte) : (soundSet s b).v = s.v := rfl
@[simp] theorem soundSet_i (b : Byte) : (soundSet s b).i = s.i := rfl
@[simp] theorem soundSet_pc (b : Byte) : (soundSet s b).pc = s.pc := rfl
@[simp] theorem soundSet_sp (b : Byte) : (soundSet s b).sp = s.sp := rfl
@[simp] theorem soundSet_mode (b : Byte) : (soundSet s b).mode = s.mode := rfl
@[simp] theorem soundSet_mem (b : Byte) : (soundSet s b).mem = s.mem := rfl
@[simp] theorem soundSet_frame (b : Byte) : (soundSet s b).frame = s.frame := rfl
@[simp] theorem soundSet_keys (b : Byte) : (soundSet s b).keys = s.keys := rfl
@[simp] theorem soundSet_dt (b : Byte) : (soundSet s b).dt = s.dt := rfl
@[simp] theorem soundSet_st (b : Byte) : (soundSet s b).st = b := rfl
@[simp] theorem soundSet_draws (b : Byte) : (soundSet s b).draws = s.draws := rfl
@[simp] theorem soundSet_schedule (b : Byte) : (soundSet s b).schedule = s.schedule := rfl

/-! ### randomByte -/

@[simp] theorem randomByte_v : ((randomByte s).2).v = s.v := rfl
@[simp] theorem randomByte_i : ((randomByte s).2).i = s.i := rfl
@[simp] theorem randomByte_pc : ((randomByte s).2).pc = s.pc := rfl
@[simp] theorem randomByte_sp : ((randomByte s).2).sp = s.sp := rfl
@[simp] theorem randomByte_mode : ((randomByte s).2).mode = s.mode := rfl
@[simp] theorem randomByte_mem : ((randomByte s).2).mem = s.mem := rfl
@[simp] theorem randomByte_frame : ((randomByte s).2).frame = s.frame := rfl
@[simp] theorem randomByte_keys : ((randomByte s).2).keys = s.keys := rfl
@[simp] theorem randomByte_dt : ((randomByte s).2).dt = s.dt := rfl
@[simp] theorem randomByte_st : ((randomByte s).2).st = s.st := rfl
@[simp] theorem randomByte_draws : ((randomByte s).2).draws = s.draws + 1 := rfl
@[simp] theorem randomByte_schedule : ((randomByte s).2).schedule = s.schedule := rfl

/-! ### setKey -/

@[simp] theorem setKey_v (k : Key) (p : Bool) : (setKey k p s).v = s.v := rfl
@[simp] theorem setKey_i (k : Key) (p : Bool) : (setKey k p s).i = s.i := rfl
@[simp] theorem setKey_pc (k : Key) (p : Bool) : (setKey k p s).pc = s.pc := rfl
@[simp] theorem setKey_sp (k : Key) (p : Bool) : (setKey k p s).sp = s.sp := rfl
@[simp] theorem setKey_mode (k : Key) (p : Bool) : (setKey k p s).mode = s.mode := rfl
@[simp] theorem setKey_mem (k : Key) (p : Bool) : (setKey k p s).mem = s.mem := rfl
@[simp] theorem setKey_frame (k : Key) (p : Bool) : (setKey k p s).frame = s.frame := rfl
@[simp] theorem setKey_keys (k : Key) (p : Bool) : (setKey k p s).keys = s.keys.set k p := rfl
@[simp] theorem setKey_dt (k : Key) (p : Bool) : (setKey k p s).dt = s.dt := rfl
@[simp] theorem setKey_st (k : Key) (p : Bool) : (setKey k p s).st = s.st := rfl
@[simp] theorem setKey_draws (k : Key) (p : Bool) : (setKey k p s).draws = s.draws := rfl
@[simp] theorem setKey_schedule (k : Key) (p : Bool) : (setKey k p s).schedule = s.schedule := rfl

/-! ### tickDelay -/

@[simp] theorem tickDelay_v : (tickDelay s).v = s.v := rfl
@[simp] theorem tickDelay_i : (tickDelay s).i = s.i := rfl
@[simp] theorem tickDelay_pc : (tickDelay s).pc = s.pc := rfl
@[simp] theorem tickDelay_sp : (tickDelay s).sp = s.sp := rfl
@[simp] theorem tickDelay_mode : (tickDelay s).mode = s.mode := rfl
@[simp] theorem tickDelay_mem : (tickDelay s).mem = s.mem := rfl
@[simp] theorem tickDelay_frame : (tickDelay s).frame = s.frame := rfl
@[simp] theorem tickDelay_keys : (tickDelay s).keys = s.keys := rfl
@[simp] theorem tickDelay_dt : (tickDelay s).dt = countDown s.dt := rfl
@[simp] theorem tickDelay_st : (tickDelay s).st = s.st := rfl
@[simp] theorem tickDelay_draws : (tickDelay s).draws = s.draws := rfl
@[simp] theorem tickDelay_schedule : (tickDelay s).schedule = s.schedule := rfl

/-! ### tickSound -/

@[simp] theorem tickSound_v : (tickSound s).v = s.v := rfl
@[simp] theorem tickSound_i : (tickSound s).i = s.i := rfl
@[simp] theorem tickSound_pc : (tickSound s).pc = s.pc := rfl
@[simp] theorem tickSound_sp : (tickSound s).sp = s.sp := rfl
@[simp] theorem tickSound_mode : (tickSound s).mode = s.mode := rfl
@[simp] theorem tickSound_mem : (tickSound s).mem = s.mem := rfl
@[simp] theorem tickSound_frame : (tickSound s).frame = s.frame := rfl
@[simp] theorem tickSound_keys : (tickSound s).keys = s.keys := rfl
@[simp] theorem tickSound_dt : (tickSound s).dt = s.dt := rfl
@[simp] theorem tickSound_st : (tickSound s).st = countDown s.st := rfl
@[simp] theorem tickSound_draws : (tickSound s).draws = s.draws := rfl
@[simp] theorem tickSound_schedule : (tickSound s).schedule = s.schedule := rfl

/-! ### init -/

@[simp] theorem init_v : (init s).v = Vector.replicate 16 0#8 := rfl
@[simp] theorem init_i : (init s).i = 0x0000#16 := rfl
@[simp] theorem init_pc : (init s).pc = 0x0200#16 := rfl
@[simp] theorem init_sp : (init s).sp = 0x0EFE#16 := rfl
@[simp] theorem init_mode : (init s).mode = .running := rfl
@[simp] theorem init_mem : (init s).mem = [] := rfl
@[simp] theorem init_frame : (init s).frame = Vector.replicate 64 (Vector.replicate 32 0#8) := rfl
@[simp] theorem init_keys : (init s).keys = s.keys := rfl
@[simp] theorem init_dt : (init s).dt = 0#8 := rfl
@[simp] theorem init_st : (init s).st = 0#8 := rfl
@[simp] theorem init_draws : (init s).draws = s.draws := rfl
@[simp] theorem init_schedule : (init s).schedule = s.schedule := rfl

/-! ### Registers and cells read back -/

/-- A register read after a register write (10_state.md R10). -/
@[simp] theorem reg_setReg (x r : Reg) (b : Byte) : (s.setReg x b).reg r = if r = x then b else s.reg r := by
  by_cases h : r = x
  · subst h; simp [State.reg]
  · have : x.val ≠ r.val := fun e => h (Fin.ext e.symm)
    simp [State.reg, h, Vector.getElem_set_ne, this]

/-- A cell read after a cell write (10_state.md R18). -/
@[simp] theorem cell_setCell (x c : Fin 64) (y r : Fin 32) (b : Byte) :
    (s.setCell x y b).cell c r = if c = x ∧ r = y then b else s.cell c r := by
  by_cases hx : c = x
  · subst hx
    by_cases hy : r = y
    · subst hy; simp [State.cell]
    · have : y.val ≠ r.val := fun e => hy (Fin.ext e.symm)
      simp [State.cell, hy, Vector.getElem_set_ne, this]
  · have : x.val ≠ c.val := fun e => hx (Fin.ext e.symm)
    simp [State.cell, hx, Vector.getElem_set_ne, this]

/-- Every cell is 0 after a clear (43_display.md R110). -/
@[simp] theorem cell_clearFrame (c : Fin 64) (r : Fin 32) : s.clearFrame.cell c r = 0#8 := by
  simp [State.cell]

/-- A cell write leaves the registers. -/
@[simp] theorem reg_setCell (x : Fin 64) (y : Fin 32) (b : Byte) (r : Reg) : (s.setCell x y b).reg r = s.reg r := rfl

/-- A register write leaves the cells. -/
@[simp] theorem cell_setReg (x : Reg) (b : Byte) (c : Fin 64) (r : Fin 32) : (s.setReg x b).cell c r = s.cell c r := rfl

/-! ### skipIf -/

@[simp] theorem skipIf_v (c : Bool) : (skipIf c s).v = s.v := by cases c <;> rfl
@[simp] theorem skipIf_i (c : Bool) : (skipIf c s).i = s.i := by cases c <;> rfl
@[simp] theorem skipIf_pc (c : Bool) : (skipIf c s).pc = if c then s.pc + 2#16 else s.pc := by cases c <;> rfl
@[simp] theorem skipIf_sp (c : Bool) : (skipIf c s).sp = s.sp := by cases c <;> rfl
@[simp] theorem skipIf_mode (c : Bool) : (skipIf c s).mode = s.mode := by cases c <;> rfl
@[simp] theorem skipIf_mem (c : Bool) : (skipIf c s).mem = s.mem := by cases c <;> rfl
@[simp] theorem skipIf_frame (c : Bool) : (skipIf c s).frame = s.frame := by cases c <;> rfl
@[simp] theorem skipIf_keys (c : Bool) : (skipIf c s).keys = s.keys := by cases c <;> rfl
@[simp] theorem skipIf_dt (c : Bool) : (skipIf c s).dt = s.dt := by cases c <;> rfl
@[simp] theorem skipIf_st (c : Bool) : (skipIf c s).st = s.st := by cases c <;> rfl
@[simp] theorem skipIf_draws (c : Bool) : (skipIf c s).draws = s.draws := by cases c <;> rfl
@[simp] theorem skipIf_schedule (c : Bool) : (skipIf c s).schedule = s.schedule := by cases c <;> rfl

/-! ### setRegsFrom -/

@[simp] theorem setRegsFrom_i (k : Nat) (bs : List Byte) : (s.setRegsFrom k bs).i = s.i := by
  induction bs generalizing s k with
  | nil => rfl
  | cons b bs ih => simp only [State.setRegsFrom]; split <;> simp [ih]

@[simp] theorem setRegsFrom_pc (k : Nat) (bs : List Byte) : (s.setRegsFrom k bs).pc = s.pc := by
  induction bs generalizing s k with
  | nil => rfl
  | cons b bs ih => simp only [State.setRegsFrom]; split <;> simp [ih]

@[simp] theorem setRegsFrom_sp (k : Nat) (bs : List Byte) : (s.setRegsFrom k bs).sp = s.sp := by
  induction bs generalizing s k with
  | nil => rfl
  | cons b bs ih => simp only [State.setRegsFrom]; split <;> simp [ih]

@[simp] theorem setRegsFrom_mode (k : Nat) (bs : List Byte) : (s.setRegsFrom k bs).mode = s.mode := by
  induction bs generalizing s k with
  | nil => rfl
  | cons b bs ih => simp only [State.setRegsFrom]; split <;> simp [ih]

@[simp] theorem setRegsFrom_mem (k : Nat) (bs : List Byte) : (s.setRegsFrom k bs).mem = s.mem := by
  induction bs generalizing s k with
  | nil => rfl
  | cons b bs ih => simp only [State.setRegsFrom]; split <;> simp [ih]

@[simp] theorem setRegsFrom_frame (k : Nat) (bs : List Byte) : (s.setRegsFrom k bs).frame = s.frame := by
  induction bs generalizing s k with
  | nil => rfl
  | cons b bs ih => simp only [State.setRegsFrom]; split <;> simp [ih]

@[simp] theorem setRegsFrom_keys (k : Nat) (bs : List Byte) : (s.setRegsFrom k bs).keys = s.keys := by
  induction bs generalizing s k with
  | nil => rfl
  | cons b bs ih => simp only [State.setRegsFrom]; split <;> simp [ih]

@[simp] theorem setRegsFrom_dt (k : Nat) (bs : List Byte) : (s.setRegsFrom k bs).dt = s.dt := by
  induction bs generalizing s k with
  | nil => rfl
  | cons b bs ih => simp only [State.setRegsFrom]; split <;> simp [ih]

@[simp] theorem setRegsFrom_st (k : Nat) (bs : List Byte) : (s.setRegsFrom k bs).st = s.st := by
  induction bs generalizing s k with
  | nil => rfl
  | cons b bs ih => simp only [State.setRegsFrom]; split <;> simp [ih]

@[simp] theorem setRegsFrom_draws (k : Nat) (bs : List Byte) : (s.setRegsFrom k bs).draws = s.draws := by
  induction bs generalizing s k with
  | nil => rfl
  | cons b bs ih => simp only [State.setRegsFrom]; split <;> simp [ih]

@[simp] theorem setRegsFrom_schedule (k : Nat) (bs : List Byte) : (s.setRegsFrom k bs).schedule = s.schedule := by
  induction bs generalizing s k with
  | nil => rfl
  | cons b bs ih => simp only [State.setRegsFrom]; split <;> simp [ih]

/-- What `setRegsFrom` leaves in each register (42_index_memory.md R106). -/
theorem reg_setRegsFrom (k : Nat) (bs : List Byte) (r : Reg) :
    (s.setRegsFrom k bs).reg r = if k ≤ r.val then bs.getD (r.val - k) (s.reg r) else s.reg r := by
  induction bs generalizing s k with
  | nil => simp [State.setRegsFrom]
  | cons b bs ih =>
    rw [State.setRegsFrom, ih]
    rcases Nat.lt_trichotomy r.val k with h | h | h
    · have h1 : ¬ k ≤ r.val := by omega
      have h2 : ¬ k + 1 ≤ r.val := by omega
      simp only [h1, h2, if_false]
      split
      · rename_i hk
        have : r ≠ ⟨k, hk⟩ := fun e => by subst e; simp at h
        simp [this]
      · rfl
    · subst h; simp
    · have h1 : k ≤ r.val := by omega
      have h2 : k + 1 ≤ r.val := by omega
      obtain ⟨d, hd⟩ : ∃ d, r.val - k = d + 1 := ⟨r.val - k - 1, by omega⟩
      have hd' : r.val - (k + 1) = d := by omega
      have hr : ∀ hk : k < 16, r ≠ ⟨k, hk⟩ := fun hk e => by subst e; simp at h
      simp only [h1, h2, if_true, hd, hd', List.getD_cons_succ]
      split <;> simp [hr]

/-- Taking a random answer leaves the registers. -/
@[simp] theorem reg_randomByte (r : Reg) : (randomByte s).2.reg r = s.reg r := rfl

/-- A conditional skip changes `PC` alone (40_control_flow.md R70). -/
theorem skipIf_eq (c : Bool) : skipIf c s = { s with pc := if c then s.pc + 2#16 else s.pc } := by
  cases c <;> rfl

end Sys2Proof.Machine
end

