-- ==== Sys2Proof/Laws/Ops.lean ====
section
/-! SUPPORT. One lemma for each shared operation that says everything it can do, so that no proof unfolds it. -/

namespace Sys2Proof.Machine

variable {s t : State}

/-! ### The end of an instruction -/

theorem finish_eq_next {e : Except Fault State} : finish e = .next t ↔ e = .ok t := by
  cases e <;> simp [finish, raise]

theorem finish_eq_fault {e : Except Fault State} {f : Fault} : finish e = .fault f ↔ e = .error f := by
  cases e <;> simp [finish, raise]

theorem finish_ne_refused {e : Except Fault State} {r : Refusal} : finish e ≠ .refused r := by
  cases e <;> simp [finish, raise]

/-! ### Reads (20_memory.md R32, R33) -/

theorem inRange_iff {a n : Nat} : inRange a n = true ↔ a + n - 1 ≤ 0xFFF := by simp [inRange]

theorem readByte_in {a : Nat} (h : a ≤ 0xFFF) : readByte s a = .ok (s.mem.get a) := by
  simp [readByte, inRange, h]

theorem readByte_out {a : Nat} (h : 0xFFF < a) : readByte s a = .error (.addressOutOfRange a) := by
  simp [readByte, inRange]; omega

/-- Reading a byte depends on memory alone. -/
theorem readByte_congr (h : s.mem = t.mem) (a : Nat) : readByte s a = readByte t a := by
  simp [readByte, h]

theorem readByte_eq_ok {a : Nat} {b : Byte} : readByte s a = .ok b ↔ a ≤ 0xFFF ∧ s.mem.get a = b := by
  by_cases h : a ≤ 0xFFF
  · simp [readByte_in h, h]
  · simp [readByte_out (Nat.lt_of_not_le h), h]

theorem readWord_in {a : Nat} (h : a ≤ 0xFFE) :
    readWord s a = .ok (wordOfBytes (s.mem.get a) (s.mem.get (a + 1))) := by
  rw [readWord, if_pos (by rw [inRange_iff]; omega)]

theorem readWord_out {a : Nat} (h : 0xFFE < a) : readWord s a = .error (.addressOutOfRange a) := by
  simp [readWord, inRange]; omega

theorem readWord_congr (h : s.mem = t.mem) (a : Nat) : readWord s a = readWord t a := by
  simp [readWord, h]

theorem readWord_eq_ok {a : Nat} {w : Word} :
    readWord s a = .ok w ↔ a ≤ 0xFFE ∧ wordOfBytes (s.mem.get a) (s.mem.get (a + 1)) = w := by
  by_cases h : a ≤ 0xFFE
  · simp [readWord_in h, h]
  · simp [readWord_out (Nat.lt_of_not_le h), h]

theorem readWord_eq_error {a : Nat} {f : Fault} :
    readWord s a = .error f ↔ 0xFFE < a ∧ f = .addressOutOfRange a := by
  by_cases h : a ≤ 0xFFE
  · simp [readWord_in h]; omega
  · simp [readWord_out (Nat.lt_of_not_le h), Nat.lt_of_not_le h, eq_comm]

/-- A run of byte reads inside memory. -/
theorem readBytes_in {a n : Nat} (h : a + n ≤ 0x1000) :
    readBytes s a n = .ok ((List.range n).map fun k => s.mem.get (a + k)) := by
  induction n generalizing a with
  | zero => rfl
  | succ n ih =>
    rw [readBytes, readByte_in (by omega)]
    simp only [ih (a := a + 1) (by omega)]
    simp [List.range_succ_eq_map, Nat.add_assoc, Nat.add_comm 1, Function.comp_def]

/-- A run of byte reads that leaves memory reports the lowest address outside it (60_exceptions.md R133). -/
theorem readBytes_out {a n : Nat} (hn : 0 < n) (h : 0x1000 < a + n) :
    readBytes s a n = .error (.addressOutOfRange (max a 0x1000)) := by
  induction n generalizing a with
  | zero => omega
  | succ n ih =>
    rw [readBytes]
    by_cases ha : a ≤ 0xFFF
    · rw [readByte_in ha]
      simp only [ih (a := a + 1) (by omega) (by omega)]
      rw [show max (a + 1) 0x1000 = max a 0x1000 by omega]
    · rw [readByte_out (by omega), show max a 0x1000 = a by omega]

/-! ### Writes (20_memory.md R32, R34) -/

theorem writeByte_in {a : Nat} (b : Byte) (h : a ≤ 0xFFF) : writeByte s a b = .ok { s with mem := s.mem.set a b } := by
  simp [writeByte, inRange, h]

theorem writeByte_out {a : Nat} (b : Byte) (h : 0xFFF < a) : writeByte s a b = .error (.addressOutOfRange a) := by
  simp [writeByte, inRange]; omega

theorem writeWord_in {a : Nat} (w : Word) (h : a ≤ 0xFFE) :
    writeWord s a w = .ok { s with mem := (s.mem.set a (hiByte w)).set (a + 1) (loByte w) } := by
  rw [writeWord, if_pos (by rw [inRange_iff]; omega)]

theorem writeWord_out {a : Nat} (w : Word) (h : 0xFFE < a) : writeWord s a w = .error (.addressOutOfRange a) := by
  simp [writeWord, inRange]; omega

/-- A run of byte writes inside memory. -/
theorem writeBytes_in {a : Nat} (bs : List Byte) (h : a + bs.length ≤ 0x1000) :
    writeBytes s a bs = .ok { s with mem := s.mem.setBytes a bs } := by
  induction bs generalizing s a with
  | nil => rfl
  | cons b bs ih =>
    simp only [List.length_cons] at h
    rw [writeBytes, writeByte_in b (by omega)]
    simp only [ih (s := { s with mem := s.mem.set a b }) (a := a + 1) (by omega)]
    rfl

/-- A run of byte writes that leaves memory reports the lowest address outside it (60_exceptions.md R133). -/
theorem writeBytes_out {a : Nat} {bs : List Byte} (hb : bs ≠ []) (h : 0x1000 < a + bs.length) :
    writeBytes s a bs = .error (.addressOutOfRange (max a 0x1000)) := by
  induction bs generalizing s a with
  | nil => exact absurd rfl hb
  | cons b bs ih =>
    simp only [List.length_cons] at h
    rw [writeBytes]
    by_cases ha : a ≤ 0xFFF
    · rw [writeByte_in b ha]
      simp only
      rw [ih (by rintro rfl; simp at h; omega) (by omega), show max (a + 1) 0x1000 = max a 0x1000 by omega]
    · rw [writeByte_out b (by omega), show max a 0x1000 = a by omega]

/-- Everything a run of byte writes can do: it writes every byte, or it reports the lowest address outside memory. -/
theorem writeBytes_cases (s : State) (a : Nat) (bs : List Byte) :
    (writeBytes s a bs = .ok { s with mem := s.mem.setBytes a bs } ∧ (bs = [] ∨ a + bs.length ≤ 0x1000)) ∨
    (writeBytes s a bs = .error (.addressOutOfRange (max a 0x1000)) ∧ 0x1000 < a + bs.length) := by
  by_cases h : a + bs.length ≤ 0x1000
  · exact .inl ⟨writeBytes_in bs h, .inr h⟩
  · cases bs with
    | nil => exact .inl ⟨rfl, .inl rfl⟩
    | cons b bs => exact .inr ⟨writeBytes_out (by simp) (by omega), by omega⟩

/-- The two bytes of a word put it together again (20_memory.md R31). -/
@[simp] theorem wordOfBytes_hi_lo (w : Word) : wordOfBytes (hiByte w) (loByte w) = w := by
  unfold wordOfBytes hiByte loByte
  ext k hk
  simp only [BitVec.getElem_append, BitVec.getElem_extractLsb']
  split
  · simp [BitVec.getLsbD_eq_getElem, hk]
  · rename_i h
    rw [show 8 + (k - 8) = k by omega, BitVec.getLsbD_eq_getElem hk]

/-! ### The stack (20_memory.md R39 to R41) -/

/-- Everything `Push` can do (R40). -/
theorem push_cases (s : State) (w : Word) :
    (s.sp.toNat < Config.stackLimit ∧ push s w = .error (.stackOverflow s.sp)) ∨
    (0xFFE < s.sp.toNat ∧ push s w = .error (.addressOutOfRange s.sp.toNat)) ∨
    (Config.stackLimit ≤ s.sp.toNat ∧ s.sp.toNat ≤ 0xFFE ∧
      push s w = .ok { s with
        mem := (s.mem.set s.sp.toNat (hiByte w)).set (s.sp.toNat + 1) (loByte w), sp := s.sp - 2#16 }) := by
  unfold push
  by_cases h : s.sp.toNat < Config.stackLimit
  · exact .inl ⟨h, by simp [h]⟩
  · by_cases h2 : s.sp.toNat ≤ 0xFFE
    · exact .inr (.inr ⟨Nat.le_of_not_lt h, h2, by rw [if_neg h, writeWord_in w h2]⟩)
    · exact .inr (.inl ⟨Nat.lt_of_not_le h2, by rw [if_neg h, writeWord_out w (Nat.lt_of_not_le h2)]⟩)

/-- `SP + 2` does not wrap where a pop is allowed (R41). -/
theorem pop_sp_toNat (h : s.sp.toNat < Config.stackBaseAddr) : (s.sp + 2#16).toNat = s.sp.toNat + 2 := by
  simp only [Config.stackBaseAddr] at h
  rw [BitVec.toNat_add, show (2#16).toNat = 2 from rfl]; omega

/-- Everything `Pop` can do (R41). -/
theorem pop_cases (s : State) :
    (Config.stackBaseAddr ≤ s.sp.toNat ∧ pop s = .error (.stackUnderflow s.sp)) ∨
    (s.sp.toNat < Config.stackBaseAddr ∧
      pop s = .ok (wordOfBytes (s.mem.get (s.sp.toNat + 2)) (s.mem.get (s.sp.toNat + 3)),
        { s with sp := s.sp + 2#16 })) := by
  by_cases h : Config.stackBaseAddr ≤ s.sp.toNat
  · exact .inl ⟨h, by simp [pop, h]⟩
  · have h' : s.sp.toNat < Config.stackBaseAddr := Nat.lt_of_not_le h
    have h2 : s.sp.toNat + 2 ≤ 0xFFE := by simp only [Config.stackBaseAddr] at h'; omega
    refine .inr ⟨h', ?_⟩
    rw [pop, if_neg h, pop_sp_toNat h', readWord_in h2]

/-! ### Checked operands -/

/-- Everything `spriteDigit` can do (42_index_memory.md R103). -/
theorem spriteDigit_cases (d : Byte) :
    (∃ h : d.toNat < 16, spriteDigit d = .ok ⟨d.toNat, h⟩) ∨
    (16 ≤ d.toNat ∧ spriteDigit d = .error (.invalidSpriteDigit d)) := by
  by_cases h : d.toNat < 16
  · exact .inl ⟨h, by simp [spriteDigit, h]⟩
  · exact .inr ⟨Nat.le_of_not_lt h, by simp [spriteDigit, h]⟩

/-- Everything `keyNumber` can do (44_keypad_timers.md R115). -/
theorem keyNumber_cases (k : Byte) :
    (∃ h : k.toNat < 16, keyNumber k = .ok ⟨k.toNat, h⟩) ∨
    (16 ≤ k.toNat ∧ keyNumber k = .error (.keyIndexOutOfRange k)) := by
  by_cases h : k.toNat < 16
  · exact .inl ⟨h, by simp [keyNumber, h]⟩
  · exact .inr ⟨Nat.le_of_not_lt h, by simp [keyNumber, h]⟩

/-- Everything `column` can do (43_display.md R111). -/
theorem column_cases (x : Byte) :
    (∃ h : x.toNat < 64, column x = .ok ⟨x.toNat, h⟩) ∨
    (64 ≤ x.toNat ∧ column x = .error (.framebufferOutOfRange x)) := by
  by_cases h : x.toNat < 64
  · exact .inl ⟨h, by simp [column, h]⟩
  · exact .inr ⟨Nat.le_of_not_lt h, by simp [column, h]⟩

/-- `V[0..x]` as bytes (42_index_memory.md R105). -/
theorem regsUpTo_length (s : State) (x : Reg) : (regsUpTo s x).length = x.val + 1 := by
  have := x.isLt; simp [regsUpTo]

/-- The k-th byte of `V[0..x]` is `V[k]` (42_index_memory.md R105). -/
theorem regsUpTo_getD (s : State) (x r : Reg) (h : r ≤ x) (d : Byte) : (regsUpTo s x).getD r.val d = s.reg r := by
  have h1 : r.val < x.val + 1 := Nat.lt_succ_of_le h
  have h2 : r.val < (regsUpTo s x).length := by rw [regsUpTo_length]; exact h1
  rw [List.getD_eq_getElem _ _ h2]
  simp [regsUpTo, State.reg]

/-! ### Flags (10_state.md R11) -/

/-- What a flag instruction leaves in each register: the flag wins in `VF`. -/
theorem reg_setResultAndFlag (s : State) (x : Reg) (b : Byte) (c : Bool) (r : Reg) :
    (setResultAndFlag s x b c).reg r = if r = vf then flagByte c else if r = x then b else s.reg r := by
  simp [setResultAndFlag]

/-- The carry of the 9-bit sum is bit 8 (41_alu.md R86). -/
theorem carryOut_eq (a b : Byte) : carryOut a b = decide (255 < a.toNat + b.toNat) := by
  have ha := a.isLt; have hb := b.isLt
  have : (sum9 a b).toNat = a.toNat + b.toNat := by
    simp only [sum9, BitVec.toNat_add, BitVec.toNat_setWidth]; omega
  rw [carryOut, BitVec.getLsbD, this, Nat.testBit_eq_decide_div_mod_eq]
  simp only [decide_eq_decide]; omega

/-- The stored sum (41_alu.md R86). -/
theorem sumLow_toNat (a b : Byte) : (sumLow a b).toNat = (a.toNat + b.toNat) % 256 := by
  have ha := a.isLt; have hb := b.isLt
  have : (sum9 a b).toNat = a.toNat + b.toNat := by
    simp only [sum9, BitVec.toNat_add, BitVec.toNat_setWidth]; omega
  simp [sumLow, BitVec.extractLsb'_toNat, this]

/-! ### The draw loop (43_display.md R111) -/

/-- Everything one iteration can do. -/
theorem drawRow_cases (x y : Byte) (i : Nat) (s : State) (f : Bool) :
    (64 ≤ x.toNat ∧ drawRow x y i s f = .error (.framebufferOutOfRange x)) ∨
    (x.toNat < 64 ∧ 0xFFF < s.i.toNat ∧ drawRow x y i s f = .error (.addressOutOfRange s.i.toNat)) ∨
    (∃ h : x.toNat < 64, s.i.toNat ≤ 0xFFF ∧
      drawRow x y i s f =
        .ok (s.setCell ⟨x.toNat, h⟩ (row y i) (s.cell ⟨x.toNat, h⟩ (row y i) ^^^ s.mem.get s.i.toNat),
          f || collides (s.cell ⟨x.toNat, h⟩ (row y i))
            (s.cell ⟨x.toNat, h⟩ (row y i) ^^^ s.mem.get s.i.toNat))) := by
  unfold drawRow effAddr
  rcases column_cases x with ⟨h, hc⟩ | ⟨h, hc⟩
  · rw [hc]
    by_cases hi : s.i.toNat ≤ 0xFFF
    · exact .inr (.inr ⟨h, hi, by simp only [Nat.add_zero, readByte_in hi]⟩)
    · exact .inr (.inl ⟨h, Nat.lt_of_not_le hi, by simp only [Nat.add_zero, readByte_out (Nat.lt_of_not_le hi)]⟩)
  · exact .inl ⟨h, by rw [hc]⟩

/-- Two rows of the loop are the same row only for the same iteration, as long as there are at most 32. -/
theorem row_injective (y : Byte) {i j : Nat} (hi : i < j + 32) (hj : j < i + 32) (h : row y i = row y j) : i = j := by
  have := congrArg Fin.val h
  simp only [row] at this
  omega

/-- The loop without a fault, from iteration `i` on: it writes cells and nothing else; a cell of the column is XORed where
its row is met, and the collision flag collects every comparison. -/
theorem drawRows_ok {x y : Byte} (hx : x.toNat < 64) (n i : Nat) (s : State) (f : Bool) (hi : s.i.toNat ≤ 0xFFF)
    (hn : n ≤ 32) : ∃ t g, drawRows x y n i s f = .ok (t, g) ∧ t = { s with frame := t.frame } ∧
      (∀ c r, t.cell c r =
        if c.val = x.toNat ∧ ∃ k, k < n ∧ r = row y (i + k) then s.cell c r ^^^ s.mem.get s.i.toNat else s.cell c r) ∧
      (g = true ↔ f = true ∨ ∃ k, k < n ∧ s.cell ⟨x.toNat, hx⟩ (row y (i + k)) >
        s.cell ⟨x.toNat, hx⟩ (row y (i + k)) ^^^ s.mem.get s.i.toNat) := by
  induction n generalizing i s f with
  | zero => exact ⟨s, f, rfl, rfl, by simp, by simp⟩
  | succ n ih =>
    rcases drawRow_cases x y i s f with ⟨h, _⟩ | ⟨_, h, _⟩ | ⟨_, _, hd⟩
    · omega
    · omega
    · rw [drawRows, hd]
      simp only
      generalize hu : s.setCell ⟨x.toNat, hx⟩ (row y i)
        (s.cell ⟨x.toNat, hx⟩ (row y i) ^^^ s.mem.get s.i.toNat) = u
      have hui : u.i = s.i := by subst hu; rfl
      have hum : u.mem = s.mem := by subst hu; rfl
      have hus : u = { s with frame := u.frame } := by subst hu; rfl
      have huc : ∀ c r, u.cell c r = if c = ⟨x.toNat, hx⟩ ∧ r = row y i
          then s.cell ⟨x.toNat, hx⟩ (row y i) ^^^ s.mem.get s.i.toNat else s.cell c r := by
        intro c r; subst hu; exact cell_setCell ..
      obtain ⟨t, g, hok, ht, hcell, hg⟩ := ih (i + 1) u _ (by rw [hui]; exact hi) (by omega)
      have hne : ∀ k, k < n → row y (i + 1 + k) ≠ row y i := fun k hk e => by
        have := row_injective y (by omega) (by omega) e; omega
      refine ⟨t, g, hok, by rw [ht, hus], fun c r => ?_, hg.trans ?_⟩
      · rw [hcell c r, hum, hui, huc c r]
        by_cases hc : c.val = x.toNat
        · have hc' : c = ⟨x.toNat, hx⟩ := Fin.ext hc
          by_cases hr : r = row y i
          · have h0 : ¬ ∃ k, k < n ∧ r = row y (i + 1 + k) := fun ⟨k, hk, e⟩ => hne k hk (e ▸ hr)
            have h1 : ∃ k, k < n + 1 ∧ r = row y (i + k) := ⟨0, by omega, hr⟩
            rw [if_neg (fun h => h0 h.2), if_pos ⟨hc', hr⟩, if_pos ⟨hc, h1⟩, hc', hr]
          · have : (∃ k, k < n ∧ r = row y (i + 1 + k)) ↔ ∃ k, k < n + 1 ∧ r = row y (i + k) := by
              constructor
              · rintro ⟨k, hk, e⟩; exact ⟨k + 1, by omega, by rw [e]; congr 1; omega⟩
              · rintro ⟨k, hk, e⟩
                cases k with
                | zero => exact absurd e hr
                | succ k => exact ⟨k, by omega, by rw [e]; congr 1; omega⟩
            rw [if_neg (c := c = _ ∧ _) (fun h => hr h.2)]
            simp only [this]
        · rw [if_neg (fun h => hc h.1), if_neg (fun h => hc (congrArg Fin.val h.1)), if_neg (fun h => hc h.1)]
      · simp only [hum, hui, huc, Bool.or_eq_true, collides, decide_eq_true_eq, true_and]
        constructor
        · rintro ((h | h) | ⟨k, hk, h⟩)
          · exact .inl h
          · exact .inr ⟨0, by omega, h⟩
          · rw [if_neg (hne k hk)] at h
            exact .inr ⟨k + 1, by omega, by rw [show i + (k + 1) = i + 1 + k by omega]; exact h⟩
        · rintro (h | ⟨k, hk, h⟩)
          · exact .inl (.inl h)
          · cases k with
            | zero => exact .inl (.inr h)
            | succ k =>
              refine .inr ⟨k, by omega, ?_⟩
              rw [if_neg (hne k (by omega)), show i + 1 + k = i + (k + 1) by omega]
              exact h

/-- The loop's faults, which its first iteration meets (R111): the column first, then the address. -/
theorem drawRows_column_fault {x : Byte} (y : Byte) (n i : Nat) (s : State) (f : Bool) (hx : 64 ≤ x.toNat) :
    drawRows x y (n + 1) i s f = .error (.framebufferOutOfRange x) := by
  rcases drawRow_cases x y i s f with ⟨_, hd⟩ | ⟨h, _⟩ | ⟨h, _⟩
  · rw [drawRows, hd]
  · omega
  · omega

theorem drawRows_address_fault {x : Byte} (y : Byte) (n i : Nat) (s : State) (f : Bool) (hx : x.toNat < 64)
    (hi : 0xFFF < s.i.toNat) : drawRows x y (n + 1) i s f = .error (.addressOutOfRange s.i.toNat) := by
  rcases drawRow_cases x y i s f with ⟨h, _⟩ | ⟨_, _, hd⟩ | ⟨_, h, _⟩
  · omega
  · rw [drawRows, hd]
  · omega

end Sys2Proof.Machine
end

