-- ==== Sys2Proof/Laws/PerInstr.lean ====
section
/-! SUPPORT. A statement for every instruction, one lemma per constructor: its word belongs to its own row of the opcode map
(spec/30_encoding.md R62). -/

namespace Sys2Proof.Laws.EncodeInOwnRow

/-- The word of a well-formed instruction belongs to the instruction's own row of the opcode map. -/
def Statement (i : Instr) : Prop := i.wellFormed = true → (opcodeRow i).selects (encode i) = true

/-- The bits of an appended word that a mask keeps, part by part. -/
theorem and_append_parts {v w : Nat} (a m : BitVec v) (b n : BitVec w) : (a ++ b) &&& (m ++ n) = (a &&& m) ++ (b &&& n) :=
  BitVec.and_append

/-- Format NNN: only the group is matched. -/
theorem selects_nnn (g : BitVec 4) (nnn : Addr12) : encodeNNN g nnn &&& 0xF000#16 = g ++ 0#12 :=
  (and_append_parts g (BitVec.allOnes 4) nnn 0#12).trans (by rw [BitVec.and_allOnes, BitVec.and_zero])

/-- The group is matched and the first register field is not. -/
theorem selects_high_byte (g : BitVec 4) (x : Reg) : (g ++ regBits x) &&& 0xF0#8 = g ++ 0#4 :=
  (and_append_parts g (BitVec.allOnes 4) (regBits x) 0#4).trans (by rw [BitVec.and_allOnes, BitVec.and_zero])

/-- Format XNN: only the group is matched. -/
theorem selects_xnn (g : BitVec 4) (x : Reg) (nn : Byte) : encodeXNN g x nn &&& 0xF000#16 = (g ++ 0#4) ++ 0#8 :=
  (and_append_parts (g ++ regBits x) 0xF0#8 nn 0#8).trans (by rw [selects_high_byte]; simp)

/-- Format XYN: only the group is matched. -/
theorem selects_xyn (g : BitVec 4) (x y : Reg) (n : BitVec 4) :
    encodeXYN g x y n &&& 0xF000#16 = (g ++ 0#4) ++ 0#8 :=
  (and_append_parts (g ++ regBits x) 0xF0#8 (regBits y ++ n) 0#8).trans (by rw [selects_high_byte]; simp)

/-- Format XY: the group and the sub-code are matched. -/
theorem selects_xy (g : BitVec 4) (x y : Reg) (n : BitVec 4) :
    encodeXYN g x y n &&& 0xF00F#16 = (g ++ 0#4) ++ (0#4 ++ n) :=
  (and_append_parts (g ++ regBits x) 0xF0#8 (regBits y ++ n) 0x0F#8).trans (by
    rw [selects_high_byte, show 0x0F#8 = 0#4 ++ BitVec.allOnes 4 from rfl, and_append_parts (regBits y), BitVec.and_allOnes, BitVec.and_zero])

/-- Format X: the group and the sub-code byte are matched. -/
theorem selects_x (g : BitVec 4) (x : Reg) (sub : Byte) : encodeX g x sub &&& 0xF0FF#16 = (g ++ 0#4) ++ sub :=
  (and_append_parts (g ++ regBits x) 0xF0#8 sub (BitVec.allOnes 8)).trans (by rw [selects_high_byte, BitVec.and_allOnes])

theorem cls : Statement .cls := fun _ => by decide

theorem ret : Statement .ret := fun _ => by decide

theorem jp (nnn : Addr12) : Statement (.jp nnn) := fun _ => by
  simp [opcodeRow, OpcodeRow.selects, encode, selects_nnn]

theorem call (nnn : Addr12) : Statement (.call nnn) := fun _ => by
  simp [opcodeRow, OpcodeRow.selects, encode, selects_nnn]

theorem seb (x : Reg) (nn : Byte) : Statement (.seb x nn) := fun _ => by
  simp [opcodeRow, OpcodeRow.selects, encode, selects_xnn]

theorem sneb (x : Reg) (nn : Byte) : Statement (.sneb x nn) := fun _ => by
  simp [opcodeRow, OpcodeRow.selects, encode, selects_xnn]

theorem se (x : Reg) (y : Reg) : Statement (.se x y) := fun _ => by
  simp [opcodeRow, OpcodeRow.selects, encode, selects_xy]

theorem ldb (x : Reg) (nn : Byte) : Statement (.ldb x nn) := fun _ => by
  simp [opcodeRow, OpcodeRow.selects, encode, selects_xnn]

theorem addb (x : Reg) (nn : Byte) : Statement (.addb x nn) := fun _ => by
  simp [opcodeRow, OpcodeRow.selects, encode, selects_xnn]

theorem mov (x : Reg) (y : Reg) : Statement (.mov x y) := fun _ => by
  simp [opcodeRow, OpcodeRow.selects, encode, selects_xy]

theorem or (x : Reg) (y : Reg) : Statement (.or x y) := fun _ => by
  simp [opcodeRow, OpcodeRow.selects, encode, selects_xy]

theorem and (x : Reg) (y : Reg) : Statement (.and x y) := fun _ => by
  simp [opcodeRow, OpcodeRow.selects, encode, selects_xy]

theorem xor (x : Reg) (y : Reg) : Statement (.xor x y) := fun _ => by
  simp [opcodeRow, OpcodeRow.selects, encode, selects_xy]

theorem add (x : Reg) (y : Reg) : Statement (.add x y) := fun _ => by
  simp [opcodeRow, OpcodeRow.selects, encode, selects_xy]

theorem sub (x : Reg) (y : Reg) : Statement (.sub x y) := fun _ => by
  simp [opcodeRow, OpcodeRow.selects, encode, selects_xy]

theorem shr (x : Reg) (y : Reg) : Statement (.shr x y) := fun _ => by
  simp [opcodeRow, OpcodeRow.selects, encode, selects_xy]

theorem subn (x : Reg) (y : Reg) : Statement (.subn x y) := fun _ => by
  simp [opcodeRow, OpcodeRow.selects, encode, selects_xy]

theorem shl (x : Reg) (y : Reg) : Statement (.shl x y) := fun _ => by
  simp [opcodeRow, OpcodeRow.selects, encode, selects_xy]

theorem sne (x : Reg) (y : Reg) : Statement (.sne x y) := fun _ => by
  simp [opcodeRow, OpcodeRow.selects, encode, selects_xy]

theorem mvi (nnn : Addr12) : Statement (.mvi nnn) := fun _ => by
  simp [opcodeRow, OpcodeRow.selects, encode, selects_nnn]

theorem mvi0 (nnn : Addr12) : Statement (.mvi0 nnn) := fun _ => by
  simp [opcodeRow, OpcodeRow.selects, encode, selects_nnn]

theorem rnd (x : Reg) (nn : Byte) : Statement (.rnd x nn) := fun _ => by
  simp [opcodeRow, OpcodeRow.selects, encode, selects_xnn]

theorem drw (x : Reg) (y : Reg) (n : Nat) : Statement (.drw x y n) := fun _ => by
  simp [opcodeRow, OpcodeRow.selects, encode, selects_xyn]

theorem skp (x : Reg) : Statement (.skp x) := fun _ => by
  simp [opcodeRow, OpcodeRow.selects, encode, selects_x]

theorem sknp (x : Reg) : Statement (.sknp x) := fun _ => by
  simp [opcodeRow, OpcodeRow.selects, encode, selects_x]

theorem gdt (x : Reg) : Statement (.gdt x) := fun _ => by
  simp [opcodeRow, OpcodeRow.selects, encode, selects_x]

theorem key (x : Reg) : Statement (.key x) := fun _ => by
  simp [opcodeRow, OpcodeRow.selects, encode, selects_x]

theorem sdt (x : Reg) : Statement (.sdt x) := fun _ => by
  simp [opcodeRow, OpcodeRow.selects, encode, selects_x]

theorem sst (x : Reg) : Statement (.sst x) := fun _ => by
  simp [opcodeRow, OpcodeRow.selects, encode, selects_x]

theorem adi (x : Reg) : Statement (.adi x) := fun _ => by
  simp [opcodeRow, OpcodeRow.selects, encode, selects_x]

theorem fnt (x : Reg) : Statement (.fnt x) := fun _ => by
  simp [opcodeRow, OpcodeRow.selects, encode, selects_x]

theorem bcd (x : Reg) : Statement (.bcd x) := fun _ => by
  simp [opcodeRow, OpcodeRow.selects, encode, selects_x]

theorem str (x : Reg) : Statement (.str x) := fun _ => by
  simp [opcodeRow, OpcodeRow.selects, encode, selects_x]

theorem ldr (x : Reg) : Statement (.ldr x) := fun _ => by
  simp [opcodeRow, OpcodeRow.selects, encode, selects_x]

end Sys2Proof.Laws.EncodeInOwnRow
end

