-- ==== Sys2Proof/Laws/Step.lean ====
section
/-! SUPPORT. What an instruction that can fault does, what the engine's step does, what the environment's actions do, and
what one step of the machine does: one inversion lemma each, which later proofs cite instead of unfolding. -/

namespace Sys2Proof.Machine

variable {s t : State}

/-! ### Instructions with more than one way to end -/

/-- RET (40_control_flow.md R71). -/
theorem execRet_cases (s : State) :
    (Config.stackBaseAddr ≤ s.sp.toNat ∧ exec .ret s = .fault (.stackUnderflow s.sp)) ∨
    (s.sp.toNat < Config.stackBaseAddr ∧ exec .ret s = .next { s with
      sp := s.sp + 2#16, pc := wordOfBytes (s.mem.get (s.sp.toNat + 2)) (s.mem.get (s.sp.toNat + 3)) }) := by
  rcases pop_cases s with ⟨h, hp⟩ | ⟨h, hp⟩
  · exact .inl ⟨h, by simp [exec, execRet, hp, raise]⟩
  · exact .inr ⟨h, by simp [exec, execRet, hp, jumpTo]⟩

/-- CALL (40_control_flow.md R73). -/
theorem execCall_cases (nnn : Addr12) (s : State) :
    (s.sp.toNat < Config.stackLimit ∧ exec (.call nnn) s = .fault (.stackOverflow s.sp)) ∨
    (0xFFE < s.sp.toNat ∧ exec (.call nnn) s = .fault (.addressOutOfRange s.sp.toNat)) ∨
    (Config.stackLimit ≤ s.sp.toNat ∧ s.sp.toNat ≤ 0xFFE ∧ exec (.call nnn) s = .next { s with
      mem := (s.mem.set s.sp.toNat (hiByte s.pc)).set (s.sp.toNat + 1) (loByte s.pc)
      sp := s.sp - 2#16, pc := addrLiteral nnn }) := by
  rcases push_cases s s.pc with ⟨h, hp⟩ | ⟨h, hp⟩ | ⟨h, h2, hp⟩
  · exact .inl ⟨h, by simp [exec, execCall, hp, raise]⟩
  · exact .inr (.inl ⟨h, by simp [exec, execCall, hp, raise]⟩)
  · exact .inr (.inr ⟨h, h2, by simp [exec, execCall, hp, jumpTo]⟩)

/-- FNT (42_index_memory.md R103). -/
theorem execFnt_cases (x : Reg) (s : State) :
    (16 ≤ (s.reg x).toNat ∧ exec (.fnt x) s = .fault (.invalidSpriteDigit (s.reg x))) ∨
    (∃ h : (s.reg x).toNat < 16, exec (.fnt x) s = .next { s with i := digitAddr ⟨(s.reg x).toNat, h⟩ }) := by
  rcases spriteDigit_cases (s.reg x) with ⟨h, hd⟩ | ⟨h, hd⟩
  · exact .inr ⟨h, by simp [exec, execFnt, hd, setI]⟩
  · exact .inl ⟨h, by simp [exec, execFnt, hd, raise]⟩

/-- BCD (42_index_memory.md R104). -/
theorem execBcd_cases (x : Reg) (s : State) :
    (s.i.toNat + 3 ≤ 0x1000 ∧
      exec (.bcd x) s = .next { s with mem := s.mem.setBytes s.i.toNat (bcdDigits (s.reg x)) }) ∨
    (0x1000 < s.i.toNat + 3 ∧ exec (.bcd x) s = .fault (.addressOutOfRange (max s.i.toNat 0x1000))) := by
  rcases writeBytes_cases s s.i.toNat (bcdDigits (s.reg x)) with ⟨hw, h | h⟩ | ⟨hw, h⟩
  · simp [bcdDigits] at h
  · exact .inl ⟨h, by simp [exec, execBcd, effAddr, hw, finish]⟩
  · exact .inr ⟨h, by simp [exec, execBcd, effAddr, hw, finish, raise]⟩

/-- STR (42_index_memory.md R105). -/
theorem execStr_cases (x : Reg) (s : State) :
    (s.i.toNat + x.val ≤ 0xFFF ∧
      exec (.str x) s = .next { s with mem := s.mem.setBytes s.i.toNat (regsUpTo s x) }) ∨
    (0xFFF < s.i.toNat + x.val ∧ exec (.str x) s = .fault (.addressOutOfRange (max s.i.toNat 0x1000))) := by
  have hl := regsUpTo_length s x
  rcases writeBytes_cases s s.i.toNat (regsUpTo s x) with ⟨hw, h | h⟩ | ⟨hw, h⟩
  · rw [h] at hl; simp at hl
  · exact .inl ⟨by omega, by simp [exec, execStr, effAddr, hw, finish]⟩
  · exact .inr ⟨by omega, by simp [exec, execStr, effAddr, hw, finish, raise]⟩

/-- LDR (42_index_memory.md R106). -/
theorem execLdr_cases (x : Reg) (s : State) :
    (s.i.toNat + x.val ≤ 0xFFF ∧ exec (.ldr x) s =
      .next (s.setRegsFrom 0 ((List.range (x.val + 1)).map fun k => s.mem.get (s.i.toNat + k)))) ∨
    (0xFFF < s.i.toNat + x.val ∧ exec (.ldr x) s = .fault (.addressOutOfRange (max s.i.toNat 0x1000))) := by
  by_cases h : s.i.toNat + x.val ≤ 0xFFF
  · exact .inl ⟨h, by
      simp only [exec, execLdr, effAddr, regCount, Nat.add_zero]
      rw [readBytes_in (by omega)]⟩
  · exact .inr ⟨Nat.lt_of_not_le h, by
      simp only [exec, execLdr, effAddr, regCount, Nat.add_zero]
      rw [readBytes_out (by omega) (by omega)]; rfl⟩

/-- SKP (44_keypad_timers.md R115). -/
theorem execSkp_cases (x : Reg) (s : State) :
    (16 ≤ (s.reg x).toNat ∧ exec (.skp x) s = .fault (.keyIndexOutOfRange (s.reg x))) ∨
    (∃ h : (s.reg x).toNat < 16, exec (.skp x) s = .next (skipIf (keyPressed s ⟨(s.reg x).toNat, h⟩) s)) := by
  rcases keyNumber_cases (s.reg x) with ⟨h, hd⟩ | ⟨h, hd⟩
  · exact .inr ⟨h, by simp [exec, execSkp, hd]⟩
  · exact .inl ⟨h, by simp [exec, execSkp, hd, raise]⟩

/-- SKNP (44_keypad_timers.md R116). -/
theorem execSknp_cases (x : Reg) (s : State) :
    (16 ≤ (s.reg x).toNat ∧ exec (.sknp x) s = .fault (.keyIndexOutOfRange (s.reg x))) ∨
    (∃ h : (s.reg x).toNat < 16, exec (.sknp x) s = .next (skipIf (!keyPressed s ⟨(s.reg x).toNat, h⟩) s)) := by
  rcases keyNumber_cases (s.reg x) with ⟨h, hd⟩ | ⟨h, hd⟩
  · exact .inr ⟨h, by simp [exec, execSknp, hd]⟩
  · exact .inl ⟨h, by simp [exec, execSknp, hd, raise]⟩

/-- The cells and the collision of DXYN (43_display.md R111), in terms of the state before it. -/
theorem execDrw_ok {x y : Reg} {n : Nat} {s : State} (hn : n ≤ 32) (hx : (s.reg x).toNat < 64)
    (hi : s.i.toNat ≤ 0xFFF) : ∃ (t : State) (g : Bool), exec (.drw x y n) s = .next (t.setReg vf (flagByte g)) ∧
      t = { s with frame := t.frame } ∧
      (∀ c r, t.cell c r =
        if c.val = (s.reg x).toNat ∧ ∃ k, k < n ∧ r = row (s.reg y) k
        then s.cell c r ^^^ s.mem.get s.i.toNat else s.cell c r) ∧
      (g = true ↔ ∃ k, k < n ∧ s.cell ⟨(s.reg x).toNat, hx⟩ (row (s.reg y) k) >
        s.cell ⟨(s.reg x).toNat, hx⟩ (row (s.reg y) k) ^^^ s.mem.get s.i.toNat) := by
  obtain ⟨t, g, hok, ht, hc, hg⟩ := drawRows_ok (y := s.reg y) hx n 0 s false hi hn
  exact ⟨t, g, by simp [exec, execDrw, hok], ht, by simpa using hc, by simpa using hg⟩

/-- DXYN with no row, or with its two faults (43_display.md R111). -/
theorem execDrw_zero (x y : Reg) (s : State) : exec (.drw x y 0) s = .next (s.setReg vf 0#8) := rfl

theorem execDrw_column_fault {x : Reg} (y : Reg) {n : Nat} {s : State} (hn : 0 < n) (hx : 64 ≤ (s.reg x).toNat) :
    exec (.drw x y n) s = .fault (.framebufferOutOfRange (s.reg x)) := by
  obtain ⟨m, rfl⟩ : ∃ m, n = m + 1 := ⟨n - 1, by omega⟩
  simp [exec, execDrw, drawRows_column_fault _ _ _ _ _ hx, raise]

theorem execDrw_address_fault {x : Reg} (y : Reg) {n : Nat} {s : State} (hn : 0 < n) (hx : (s.reg x).toNat < 64)
    (hi : 0xFFF < s.i.toNat) : exec (.drw x y n) s = .fault (.addressOutOfRange s.i.toNat) := by
  obtain ⟨m, rfl⟩ : ∃ m, n = m + 1 := ⟨n - 1, by omega⟩
  simp [exec, execDrw, drawRows_address_fault _ _ _ _ _ hx hi, raise]

/-! ### The engine's step (30_encoding.md R55) -/

/-- Everything `step()` can do. -/
theorem engineStep_cases (s : State) :
    (s.mode = .waitingForKey ∧ engineStep s = .next s) ∨
    (s.mode = .running ∧ 0xFFE < s.pc.toNat ∧ engineStep s = .fault (.addressOutOfRange s.pc.toNat)) ∨
    (∃ w, s.mode = .running ∧ fetch s = .ok w ∧ decodeWord w = none ∧ engineStep s = .fault (.invalidOpcode w)) ∨
    (∃ w i, s.mode = .running ∧ fetch s = .ok w ∧ decodeWord w = some i ∧ engineStep s = exec i (advancePc s)) := by
  cases hm : s.mode with
  | waitingForKey => exact .inl ⟨rfl, by simp [engineStep, hm]⟩
  | running =>
    cases hf : fetch s with
    | error f =>
      obtain ⟨h, rfl⟩ := readWord_eq_error.mp hf
      exact .inr (.inl ⟨rfl, h, by simp [engineStep, hm, hf, raise]⟩)
    | ok w =>
      cases hd : decodeWord w with
      | none => exact .inr (.inr (.inl ⟨w, rfl, rfl, hd, by simp [engineStep, hm, hf, hd, raise]⟩))
      | some i => exact .inr (.inr (.inr ⟨w, i, rfl, rfl, hd, by simp [engineStep, hm, hf, hd]⟩))

/-- What a fetched word is, in memory's own terms (30_encoding.md R50). -/
theorem fetch_eq_ok {w : Word} :
    fetch s = .ok w ↔ s.pc.toNat ≤ 0xFFE ∧ wordOfBytes (s.mem.get s.pc.toNat) (s.mem.get (s.pc.toNat + 1)) = w :=
  readWord_eq_ok

/-! ### The environment (60_exceptions.md, 70_reset_and_hazards.md) -/

/-- Everything a key notification can do (60_exceptions.md R145). -/
theorem notifyKeyPressed_cases (k : Key) (s : State) :
    (s.mode = .running ∧ notifyKeyPressed k s = .ok s) ∨
    (s.mode = .waitingForKey ∧ 0xFFE < (s.pc - 2#16).toNat ∧
      notifyKeyPressed k s = .error (.addressOutOfRange (s.pc - 2#16).toNat)) ∨
    (∃ w, s.mode = .waitingForKey ∧ pendingWord s = .ok w ∧
      notifyKeyPressed k s = .ok { s.setReg (opX w) (BitVec.ofNat 8 k.val) with mode := .running }) := by
  cases hm : s.mode with
  | running => exact .inl ⟨rfl, by simp [notifyKeyPressed, hm]⟩
  | waitingForKey =>
    cases hp : pendingWord s with
    | error f =>
      obtain ⟨h, rfl⟩ := readWord_eq_error.mp hp
      exact .inr (.inl ⟨rfl, h, by simp [notifyKeyPressed, hm, hp]⟩)
    | ok w => exact .inr (.inr ⟨w, rfl, rfl, by simp [notifyKeyPressed, hm, hp]⟩)

/-- Everything `load_program` can do (70_reset_and_hazards.md R162). -/
theorem loadProgram_cases (bs : List Byte) (s : State) :
    (bs.length > Config.maxProgramBytes ∧ loadProgram bs s = .error .tooLarge) ∨
    (bs.length ≤ Config.maxProgramBytes ∧
      loadProgram bs s = .ok { s with mem := s.mem.setBytes Config.programLoadAddr bs }) := by
  by_cases h : bs.length > Config.maxProgramBytes
  · exact .inl ⟨h, by simp [loadProgram, h]⟩
  · exact .inr ⟨Nat.le_of_not_lt h, by simp [loadProgram, h]⟩

/-- The largest program fits in memory (00_scope.md R6). -/
theorem maxProgramBytes_fits : Config.programLoadAddr + Config.maxProgramBytes ≤ Config.memBytes := by decide

/-! ### One step of the machine (00_scope.md R4) -/

/-- With nothing scheduled, a step is the engine's. -/
theorem step_of_quiet (h : s.schedule = []) : step s = engineStep s := by
  simp only [step, nextAction, h, act]
  cases engineStep s <;> rfl

/-- With an action scheduled, a step is that action, which is then no longer to come. -/
theorem step_of_scheduled {a : Action} {as : List Action} (h : s.schedule = a :: as) :
    step s = outcomeOf (act a { s with schedule := as }) := by
  simp only [step, nextAction, h]

/-- A step that goes on is some action of the agents, from the state in which it is no longer to come. -/
theorem step_next (h : step s = .next t) :
    ∃ a u, (u = s ∨ ∃ as, u = { s with schedule := as }) ∧ (act a u).1 = t := by
  have key : ∀ p : State × Reply, outcomeOf p = .next t → p.1 = t := by
    rintro ⟨u, r⟩; cases r <;> simp [outcomeOf, raise]
  cases hs : s.schedule with
  | nil =>
    refine ⟨.step, s, .inl rfl, key _ ?_⟩
    simpa [step, nextAction, hs] using h
  | cons a as =>
    exact ⟨a, { s with schedule := as }, .inr ⟨as, rfl⟩, key _ (by rw [← step_of_scheduled hs]; exact h)⟩

end Sys2Proof.Machine
end

