-- ==== Sys2Proof/Tests/Slice0.lean ====
section
/-! SUPPORT. The model's own tests. Words are written out from spec/30_encoding.md R62, and expected results are the rows of
spec/95_test_vectors.md part 2 unless a comment names another rule. Then, for every obligation with hypotheses, a state and
operands that meet them together, clause by clause, at boundary values. -/

namespace Sys2Proof.Tests

open Sys2Proof.Machine

/-! ### Helpers -/

/-- The reset state with two registers set. -/
def start (x : Reg) (a : Byte) (y : Reg) (b : Byte) : State := (State.reset.setReg x a).setReg y b

/-- The word `w`, placed at 0x200 in `s`, runs in one step to a state that satisfies `p`. -/
def runs (w : Nat) (s : State) (p : State → Bool) : Bool :=
  match step (s.withFetchWord 16 w) with
  | .next t => p t
  | .fault _ => false
  | .refused _ => false

/-- The word `w`, placed where `s` fetches, faults with `f`. -/
def stops (w : Nat) (s : State) (f : Fault) : Bool :=
  match step (s.withFetchWord 16 w) with
  | .next _ => false
  | .fault g => g = f
  | .refused _ => false

/-- The bytes of memory from `a` on. -/
def bytesAt (s : State) (a n : Nat) : List Byte := (List.range n).map (fun k => s.mem.get (a + k))

/-- The reset state with memory bytes from `a` on. -/
def withBytes (s : State) (a : Nat) (bs : List Byte) : State := { s with mem := s.mem.setBytes a bs }

/-! ### Well-formedness -/

theorem test_wellFormed_refuses_a_row_count_of_16 : (Instr.drw 0 0 16).wellFormed = false := by decide
theorem test_wellFormed_takes_a_row_count_of_15 : (Instr.drw 0 0 15).wellFormed = true := by decide
theorem test_wellFormed_refuses_what_would_encode_as_another :
    encode (.drw 1 2 16) = encode (.drw 1 2 0) ∧ (Instr.drw 1 2 16).wellFormed = false := by decide

/-! ### Decoding: a word of every constructor -/

theorem test_decode_control_flow :
    decodeWord 0x00E0#16 = some .cls ∧ decodeWord 0x00EE#16 = some .ret ∧
    decodeWord 0x1234#16 = some (.jp 0x234#12) ∧ decodeWord 0x2ABC#16 = some (.call 0xABC#12) ∧
    decodeWord 0x332A#16 = some (.seb 3 0x2A#8) ∧ decodeWord 0x432B#16 = some (.sneb 3 0x2B#8) ∧
    decodeWord 0x5120#16 = some (.se 1 2) ∧ decodeWord 0x9450#16 = some (.sne 4 5) := by decide

theorem test_decode_alu :
    decodeWord 0x6A7F#16 = some (.ldb 10 0x7F#8) ∧ decodeWord 0x7201#16 = some (.addb 2 0x01#8) ∧
    decodeWord 0x8120#16 = some (.mov 1 2) ∧ decodeWord 0x8121#16 = some (.or 1 2) ∧
    decodeWord 0x8122#16 = some (.and 1 2) ∧ decodeWord 0x8123#16 = some (.xor 1 2) ∧
    decodeWord 0x8124#16 = some (.add 1 2) ∧ decodeWord 0x8125#16 = some (.sub 1 2) ∧
    decodeWord 0x8176#16 = some (.shr 1 7) ∧ decodeWord 0x8127#16 = some (.subn 1 2) ∧
    decodeWord 0x817E#16 = some (.shl 1 7) ∧ decodeWord 0xC30F#16 = some (.rnd 3 0x0F#8) := by decide

theorem test_decode_index_memory_display :
    decodeWord 0xA2F0#16 = some (.mvi 0x2F0#12) ∧ decodeWord 0xB301#16 = some (.mvi0 0x301#12) ∧
    decodeWord 0xF21E#16 = some (.adi 2) ∧ decodeWord 0xF429#16 = some (.fnt 4) ∧
    decodeWord 0xF933#16 = some (.bcd 9) ∧ decodeWord 0xF255#16 = some (.str 2) ∧
    decodeWord 0xF265#16 = some (.ldr 2) ∧ decodeWord 0xD12F#16 = some (.drw 1 2 15) := by decide

theorem test_decode_keypad_timers :
    decodeWord 0xE59E#16 = some (.skp 5) ∧ decodeWord 0xE5A1#16 = some (.sknp 5) ∧
    decodeWord 0xF307#16 = some (.gdt 3) ∧ decodeWord 0xF40A#16 = some (.key 4) ∧
    decodeWord 0xF315#16 = some (.sdt 3) ∧ decodeWord 0xF318#16 = some (.sst 3) := by decide

/-- R56, R57: words that match no row, one of each group. -/
theorem test_decode_rejects :
    decodeWord 0x0000#16 = none ∧ decodeWord 0x01EE#16 = none ∧ decodeWord 0x00E1#16 = none ∧
    decodeWord 0x5121#16 = none ∧ decodeWord 0x8128#16 = none ∧ decodeWord 0x812F#16 = none ∧
    decodeWord 0x9121#16 = none ∧ decodeWord 0xE59F#16 = none ∧ decodeWord 0xF300#16 = none ∧
    decodeWord 0xFFFF#16 = none := by decide

/-- R31, R50, R59: the high byte comes first, and what follows is left. -/
theorem test_decode_bytes_high_byte_first :
    decode [0x6A#8, 0x7F#8, 0x12#8] = .ok (.ldb 10 0x7F#8, [0x12#8]) ∧ decode [0x6A#8] = .error .truncated := by decide

theorem test_decodeTableWord_high_byte_first :
    decodeTableWord 16 0x6A7F = some (.ldb 10 0x7F#8) ∧ decodeTableWord 16 0x0000 = none := by decide

/-- R60 to R62: the assembler's spelling. -/
theorem test_asmText_of_three_words :
    asmText .cls = "CLS" ∧ asmText (.shr 1 7) = "SHR V1" ∧ asmText (.drw 0 10 4) = "DRW V0, VA, 0x4" := by decide

/-! ### Control flow -/

theorem test_jp_keeps_an_odd_target : runs 0x1201 .reset (fun t => t.pc == 0x201#16) = true := by decide
theorem test_call_pushes_the_advanced_pc :
    runs 0x2ABC .reset (fun t => bytesAt t 0xEFD 4 == [0x00#8, 0x02#8, 0x02#8, 0x00#8] &&
      t.sp == 0xEFC#16 && t.pc == 0xABC#16) = true := by decide
theorem test_call_overflows_below_the_limit :
    stops 0x2300 { State.reset with sp := 0xE9E#16 } (.stackOverflow 0xE9E#16) = true := by decide
theorem test_ret_pops_all_sixteen_bits :
    runs 0x00EE (withBytes { State.reset with sp := 0xEFC#16 } 0xEFE [0xFF#8, 0xFE#8])
      (fun t => t.sp == 0xEFE#16 && t.pc == 0xFFFE#16) = true := by decide
theorem test_ret_underflows_on_an_empty_stack : stops 0x00EE .reset (.stackUnderflow 0xEFE#16) = true := by decide
theorem test_seb : runs 0x332A (start 3 0x2A 0 0) (fun t => t.pc == 0x204#16) = true ∧
    runs 0x332A (start 3 0x2B 0 0) (fun t => t.pc == 0x202#16) = true := by decide
theorem test_sneb : runs 0x432A (start 3 0x2A 0 0) (fun t => t.pc == 0x202#16) = true ∧
    runs 0x432A (start 3 0x00 0 0) (fun t => t.pc == 0x204#16) = true := by decide
theorem test_se : runs 0x5120 (start 1 7 2 7) (fun t => t.pc == 0x204#16) = true ∧
    runs 0x5120 (start 1 7 2 8) (fun t => t.pc == 0x202#16) = true := by decide
theorem test_sne : runs 0x9120 (start 1 7 2 8) (fun t => t.pc == 0x204#16) = true ∧
    runs 0x9440 (start 4 9 0 0) (fun t => t.pc == 0x202#16) = true := by decide
theorem test_skip_does_not_check_the_next_address :
    runs 0x3000 { State.reset with pc := 0xFFE#16 } (fun t => t.pc == 0x1002#16) = true := by decide

/-! ### Loads, arithmetic, logic, shifts, random -/

theorem test_ldb_into_vf : runs 0x6F33 .reset (fun t => t.reg 15 == 0x33#8) = true := by decide
theorem test_addb_wraps_without_carry :
    runs 0x7201 (start 2 0xFF 15 0) (fun t => t.reg 2 == 0#8 && t.reg 15 == 0#8) = true := by decide
theorem test_mov_takes_y : runs 0x8120 (start 2 0x33 1 5) (fun t => t.reg 1 == 0x33#8 && t.reg 2 == 0x33#8) = true := by
  decide
theorem test_or_leaves_vf :
    runs 0x8121 ((start 1 0xF0 2 0x0F).setReg 15 1) (fun t => t.reg 1 == 0xFF#8 && t.reg 15 == 1#8) = true := by decide
theorem test_and : runs 0x8122 (start 1 0xF0 2 0x3C) (fun t => t.reg 1 == 0x30#8) = true := by decide
theorem test_xor : runs 0x8123 (start 1 0xF0 2 0x3C) (fun t => t.reg 1 == 0xCC#8) = true := by decide
theorem test_add_flag_wins_in_vf : runs 0x8F14 (start 15 0xFF 1 2) (fun t => t.reg 15 == 1#8) = true := by decide
theorem test_add_reads_old_vf :
    runs 0x81F4 (start 1 0xFE 15 3) (fun t => t.reg 1 == 1#8 && t.reg 15 == 1#8) = true := by decide
theorem test_sub_borrows :
    runs 0x8125 (start 1 3 2 5) (fun t => t.reg 1 == 0xFE#8 && t.reg 15 == 0#8) = true := by decide
theorem test_sub_flag_is_strict :
    runs 0x8125 (start 1 7 2 7) (fun t => t.reg 1 == 0#8 && t.reg 15 == 0#8) = true := by decide
theorem test_shr_ignores_y :
    runs 0x8176 (start 1 0xFF 7 0x12) (fun t => t.reg 1 == 0x7F#8 && t.reg 7 == 0x12#8 && t.reg 15 == 1#8) = true := by
  decide
theorem test_shr_flag_wins_in_vf : runs 0x8F06 (start 15 3 0 0) (fun t => t.reg 15 == 1#8) = true := by decide
theorem test_subn_reverses :
    runs 0x8127 (start 1 3 2 5) (fun t => t.reg 1 == 2#8 && t.reg 15 == 1#8) = true := by decide
theorem test_subn_flag_wins_in_vf : runs 0x8F17 (start 15 4 1 9) (fun t => t.reg 15 == 1#8) = true := by decide
theorem test_shl_shifts_out_bit_seven :
    runs 0x810E (start 1 0x81 0 0) (fun t => t.reg 1 == 2#8 && t.reg 15 == 1#8) = true := by decide
theorem test_shl_flag_wins_in_vf : runs 0x8F0E (start 15 0x7F 0 0) (fun t => t.reg 15 == 0#8) = true := by decide

/-- R92: one draw, and with `NN = 0` the result is 0 whatever the source answers. -/
theorem test_rnd_masks_with_zero (r : Byte) (s : State) (h : Config.randomByte s.draws = r) :
    exec (.rnd 3 0) s = .next (({ s with draws := s.draws + 1 } : State).setReg 3 (r &&& 0#8)) ∧ r &&& 0#8 = 0#8 := by
  subst h; exact ⟨rfl, by simp⟩

/-! ### Index register and memory -/

theorem test_mvi : runs 0xAFFF .reset (fun t => t.i == 0x0FFF#16) = true := by decide
theorem test_mvi0_does_not_jump :
    runs 0xB300 (start 0 0x10 1 0) (fun t => t.i == 0x0310#16 && t.pc == 0x202#16) = true := by decide
theorem test_mvi0_has_no_mask : runs 0xBFFF (start 0 0xFF 1 0) (fun t => t.i == 0x10FE#16) = true := by decide
theorem test_adi_has_no_mask_and_no_flag :
    runs 0xF21E { start 2 1 15 0 with i := 0x0FFF#16 } (fun t => t.i == 0x1000#16 && t.reg 15 == 0#8) = true := by decide
theorem test_adi_wraps_at_sixteen_bits :
    runs 0xF21E { start 2 1 15 0 with i := 0xFFFF#16 } (fun t => t.i == 0x0000#16) = true := by decide
theorem test_fnt_last_digit : runs 0xF429 (start 4 0x0F 0 0) (fun t => t.i == 0x004B#16) = true := by decide
theorem test_fnt_rejects_sixteen : stops 0xF429 (start 4 0x10 0 0) (.invalidSpriteDigit 0x10#8) = true := by decide
theorem test_bcd_at_the_top_of_memory :
    runs 0xF033 { start 0 0xC7 1 0 with i := 0xFFD#16 } (fun t => bytesAt t 0xFFC 4 == [0#8, 1#8, 9#8, 9#8]) = true := by
  decide
theorem test_bcd_faults_past_the_top :
    stops 0xF033 { start 0 0xC7 1 0 with i := 0xFFE#16 } (.addressOutOfRange 0x1000) = true := by decide
theorem test_str_stores_three :
    runs 0xF255 { (start 0 0x11 1 0x22).setReg 2 0x33 with i := 0x400#16 }
      (fun t => bytesAt t 0x3FF 5 == [0#8, 0x11#8, 0x22#8, 0x33#8, 0#8] && t.i == 0x400#16) = true := by decide
theorem test_str_faults_past_the_top :
    stops 0xFF55 { State.reset with i := 0xFF1#16 } (.addressOutOfRange 0x1000) = true := by decide
theorem test_ldr_loads_the_font :
    runs 0xF465 .reset (fun t => (List.finRange 6).map (fun k => t.reg (k.castLE (by decide))) ==
      [0xF0#8, 0x90#8, 0x90#8, 0x90#8, 0xF0#8, 0#8]) = true := by decide
theorem test_ldr_faults_past_the_top :
    stops 0xF165 { State.reset with i := 0xFFF#16 } (.addressOutOfRange 0x1000) = true := by decide

/-! ### Display -/

theorem test_cls : runs 0x00E0 (State.reset.setCell 9 9 0x55) (fun t => t.cell 9 9 == 0#8) = true := by decide
theorem test_drw_wraps_rows_and_repeats_one_byte :
    runs 0xD014 (start 0 3 1 30) (fun t => t.cell 3 30 == 0xF0#8 && t.cell 3 31 == 0xF0#8 && t.cell 3 0 == 0xF0#8 &&
      t.cell 3 1 == 0xF0#8 && t.cell 3 2 == 0#8 && t.cell 4 30 == 0#8 && t.reg 15 == 0#8) = true := by decide
theorem test_drw_collision_is_a_comparison :
    runs 0xD011 (withBytes { (start 0 5 1 2).setCell 5 2 0x01 with i := 0x300#16 } 0x300 [0x03#8])
      (fun t => t.cell 5 2 == 0x02#8 && t.reg 15 == 0#8) = true ∧
    runs 0xD011 (withBytes { (start 0 5 1 2).setCell 5 2 0xFF with i := 0x300#16 } 0x300 [0x0F#8])
      (fun t => t.cell 5 2 == 0xF0#8 && t.reg 15 == 1#8) = true := by decide

/-! ### Keypad, timers and the other actions -/

/-- The reset state with key A pressed. -/
def keyADown : State := setKey 10 true .reset

theorem test_skp : runs 0xE59E (keyADown.setReg 5 0x0A) (fun t => t.pc == 0x204#16) = true ∧
    runs 0xE59E (start 5 0x0A 0 0) (fun t => t.pc == 0x202#16) = true := by decide
theorem test_skp_rejects_sixteen : stops 0xE59E (start 5 0x10 0 0) (.keyIndexOutOfRange 0x10#8) = true := by decide
theorem test_sknp : runs 0xE5A1 (keyADown.setReg 5 0x0A) (fun t => t.pc == 0x202#16) = true ∧
    runs 0xE5A1 (start 5 0x0A 0 0) (fun t => t.pc == 0x204#16) = true := by decide
theorem test_sknp_rejects_the_whole_byte :
    stops 0xE5A1 (start 5 0xFF 0 0) (.keyIndexOutOfRange 0xFF#8) = true := by decide
theorem test_gdt : runs 0xF307 { State.reset with dt := 0x3C#8 } (fun t => t.reg 3 == 0x3C#8) = true := by decide
theorem test_sdt : runs 0xF315 (start 3 0x3C 0 0) (fun t => t.dt == 0x3C#8 && t.st == 0#8) = true := by decide
theorem test_sst : runs 0xF318 (start 3 0x08 0 0) (fun t => t.st == 0x08#8 && t.dt == 0#8) = true := by decide

/-- Waiting after F40A at 0x200. -/
def waiting : State :=
  { withBytes .reset 0x200 [0xF4#8, 0x0A#8] with pc := 0x202#16, mode := .waitingForKey }

theorem test_key_enters_the_wait :
    runs 0xF40A (start 4 0x77 0 0) (fun t => t.mode == .waitingForKey && t.pc == 0x202#16 && t.reg 4 == 0x77#8) = true := by
  decide
theorem test_notification_deposits_the_key :
    (act (.notifyKeyPressed 7) waiting).1.reg 4 = 7#8 ∧ (act (.notifyKeyPressed 7) waiting).1.mode = .running ∧
    (act (.notifyKeyPressed 7) waiting).1.pc = 0x202#16 := by decide
theorem test_delay_stops_at_zero :
    (runActions [.tickDelay, .tickDelay] { State.reset with dt := 1#8 }).1.dt = 0#8 := by decide

/-- R92, R160 and assumption log 6: `init` resets the machine and not the random source. -/
theorem test_init_ends_a_wait_and_keeps_the_keys :
    (act .init { waiting with keys := keyADown.keys }).1 = keyADown := by decide

theorem test_init_then_step : engineStep (init waiting) = .fault (.invalidOpcode 0x0000#16) := by rfl

theorem test_load_program_of_one_byte :
    (act (.loadProgram [0xAB#8]) .reset).1.mem = [(0x200, 0xAB#8)] := by decide

/-! ### Reset and the step -/

/-- R23, with the default font of R21. -/
theorem test_reset_memory :
    State.reset.mem.get 0x000 = 0xF0#8 ∧ State.reset.mem.get 0x04F = 0x80#8 ∧ State.reset.mem.get 0x050 = 0#8 := by decide

/-- The fetch at the edge of memory (vectors of part 2.1). -/
theorem test_fetch_at_the_edges :
    runs 0x6109 { State.reset with pc := 0x201#16 } (fun t => t.reg 1 == 9#8 && t.pc == 0x203#16) = true ∧
    (match engineStep { State.reset with pc := 0xFFF#16 } with
      | .fault f => f = .addressOutOfRange 0x0FFF
      | _ => false) = true := by decide

/-- `withFetchWord` places the word where the fetch looks, from any `PC`. -/
theorem test_withFetchWord_leaves_an_unfetchable_pc :
    runs 0x6109 { State.reset with pc := 0xFFFF#16 } (fun t => t.reg 1 == 9#8) = true := by decide

/-- An action that is scheduled moves before the engine (assumption log 5). -/
theorem test_schedule_goes_first :
    (match step { State.reset with schedule := [.keyChange 10 true] } with
      | .next t => t = keyADown
      | _ => false) = true := by decide

/-! ### The hypotheses of the obligations can be met

`witness_<Name>` shows states and operands that meet the hypotheses of `Obligations.<Name>` together, each clause at a boundary
of its range. An obligation that is not named here has no hypotheses but that a word lies in its opcode row, which
`witness_every_row_selects_a_word` shows. -/

/-- The reset state with the word `w` at 0x200. -/
def at200 (w : Nat) : State := State.reset.withFetchWord 16 w

theorem witness_every_row_selects_a_word : opcodeMap.all (fun r => r.selects r.value) = true := by decide

theorem witness_DecodeOfEncodeIsTheInstruction : (Instr.drw 1 2 15).wellFormed = true := by decide
theorem witness_EncodeOfDecodeIsTheWord : decodeWord 0xD12F#16 = some (.drw 1 2 15) := by decide
theorem witness_InvalidWordsAreExactlyTheListedOnes :
    State.reset.mode = .running ∧ fetch .reset = .ok 0x0000#16 ∧ decodeWord 0x0000#16 = none := ⟨rfl, rfl, rfl⟩
theorem witness_OpcodeMapIsCompleteAndUnambiguous :
    opcodeRow .cls ∈ opcodeMap ∧ (opcodeRow .cls).selects 0x00E0#16 = true ∧ decodeWord 0x00E0#16 = some .cls := by decide

/-- `PC` at the last address where an instruction can stand. -/
theorem witness_StepRunsTheDecodedInstruction :
    let s : State := { withBytes .reset 0xFFE [0x6A#8, 0x7F#8] with pc := 0xFFE#16 }
    s.mode = .running ∧ readByte s s.pc.toNat = .ok 0x6A#8 ∧ readByte s (s.pc.toNat + 1) = .ok 0x7F#8 ∧
      decode [0x6A#8, 0x7F#8] = .ok (.ldb 10 0x7F#8, []) ∧ s.schedule = [] ∧ s.pc.toNat ≤ 0xFFFD ∧
      ({ s with schedule := [.step] } : State).schedule = [.step] := ⟨rfl, rfl, rfl, rfl, rfl, by decide, rfl⟩

theorem witness_FetchThenDecodeFaultsComeFirst :
    0xFFE < ({ State.reset with pc := 0xFFF#16 } : State).pc.toNat ∧
    ({ State.reset with pc := 0xFFE#16 } : State).pc.toNat ≤ 0xFFE ∧
    readWord State.reset 0x200 = .ok 0x0000#16 ∧ decodeWord 0x0000#16 = none ∧
    engineStep (at200 0x00EE) = .fault (.stackUnderflow 0xEFE#16) ∧ readWord (at200 0x00EE) 0x200 = .ok 0x00EE#16 ∧
    decodeWord 0x00EE#16 = some .ret :=
  ⟨by decide, by decide, rfl, by decide, rfl, rfl, by decide⟩

theorem witness_WaitingStepsChangeNothing : waiting.mode = .waitingForKey := rfl
theorem witness_FaultingStepChangesNothingAndRecurs :
    engineStep .reset = .fault (.invalidOpcode 0x0000#16) := rfl

/-- A state for each of the seven faults, and for each of the four ways to an address out of range. -/
theorem witness_EveryFaultHasItsCondition :
    (MachineInv .reset ∧ engineStep .reset = .fault (.invalidOpcode 0x0000#16)) ∧
    (MachineInv { at200 0x2300 with sp := 0xE9E#16 } ∧
      engineStep { at200 0x2300 with sp := 0xE9E#16 } = .fault (.stackOverflow 0xE9E#16)) ∧
    (MachineInv (at200 0x00EE) ∧ engineStep (at200 0x00EE) = .fault (.stackUnderflow 0xEFE#16)) ∧
    (MachineInv ((at200 0xF429).setReg 4 0x10) ∧
      engineStep ((at200 0xF429).setReg 4 0x10) = .fault (.invalidSpriteDigit 0x10#8)) ∧
    (MachineInv { State.reset with pc := 0xFFF#16 } ∧
      engineStep { State.reset with pc := 0xFFF#16 } = .fault (.addressOutOfRange 0xFFF)) ∧
    (MachineInv { at200 0xF033 with i := 0xFFE#16 } ∧
      engineStep { at200 0xF033 with i := 0xFFE#16 } = .fault (.addressOutOfRange 0x1000)) ∧
    (MachineInv { at200 0xF165 with i := 0xFFF#16 } ∧
      engineStep { at200 0xF165 with i := 0xFFF#16 } = .fault (.addressOutOfRange 0x1000)) ∧
    (MachineInv { at200 0xD001 with i := 0x1000#16 } ∧
      engineStep { at200 0xD001 with i := 0x1000#16 } = .fault (.addressOutOfRange 0x1000)) ∧
    (MachineInv ((at200 0xD011).setReg 0 64) ∧
      engineStep ((at200 0xD011).setReg 0 64) = .fault (.framebufferOutOfRange 64#8)) ∧
    (MachineInv ((at200 0xE59E).setReg 5 0x10) ∧
      engineStep ((at200 0xE59E).setReg 5 0x10) = .fault (.keyIndexOutOfRange 0x10#8)) :=
  ⟨⟨by decide, rfl⟩, ⟨by decide, rfl⟩, ⟨by decide, rfl⟩, ⟨by decide, rfl⟩, ⟨by decide, rfl⟩, ⟨by decide, rfl⟩,
    ⟨by decide, rfl⟩, ⟨by decide, rfl⟩, ⟨by decide, rfl⟩, ⟨by decide, rfl⟩⟩

theorem witness_TheOtherInstructionsNeverFault : mayFault (.drw 0 0 0) = false ∧ mayFault (.mvi0 0) = false := by decide

/-- A bit number of the logic and random statements. -/
theorem witness_LogicInstructionsAreBitwiseWithoutFlag : (7 : Nat) < 8 := by decide

/-- A destination that is not `VF`, for the statements about ADD, SUB, SHR, SUBN and SHL. -/
theorem witness_AddStoresTheSumAndTheCarry : (14 : Reg) ≠ 15 := by decide

theorem witness_RndMasksOneRandomByte :
    (∃ t, exec (.rnd 3 0xFF) .reset = .next t) ∧ (∃ t, exec .cls .reset = .next t) ∧ ∀ x nn, Instr.cls ≠ .rnd x nn :=
  ⟨⟨_, rfl⟩, ⟨_, rfl⟩, by simp⟩

theorem witness_OnlyNamedRegistersAndTheFlagAreWritten :
    (∃ t, exec (.sub 1 2) .reset = .next t) ∧ writesFlag (.sub 1 2) = true ∧ (2 : Reg) ∉ destRegs (.sub 1 2) ∧
    (2 : Reg) ≠ 15 ∧ (∃ t, exec (.ldr 3) .reset = .next t) ∧ (4 : Reg) ∉ destRegs (.ldr 3) ∧
    writesFlag (.ldr 3) = false := ⟨⟨_, rfl⟩, by decide, by decide, by decide, ⟨_, rfl⟩, by decide, by decide⟩

theorem witness_RetPopsThePc :
    ({ State.reset with sp := 0xEFC#16 } : State).sp.toNat < 0xEFE ∧ 0xEFE ≤ State.reset.sp.toNat := by decide

theorem witness_CallPushesTheReturnAddress :
    State.reset.mem.wf = true ∧
    (Config.stackLimit ≤ ({ State.reset with sp := 0xEA0#16 } : State).sp.toNat ∧
      ({ State.reset with sp := 0xFFE#16 } : State).sp.toNat ≤ 0xFFE) ∧
    ({ State.reset with sp := 0xE9F#16 } : State).sp.toNat < Config.stackLimit ∧
    0xFFE < ({ State.reset with sp := 0xFFF#16 } : State).sp.toNat := by decide

theorem witness_RetAfterCallRestoresPcAndSp :
    let s : State := { State.reset with sp := 0xEA0#16 }
    s.mem.wf = true ∧ StackInv s ∧ ∃ t, exec (.call 0x300#12) s = .next t := ⟨by decide, by decide, _, rfl⟩

theorem witness_OnlyControlFlowWritesPcAndSp :
    (∃ t, exec (.call 0x300#12) .reset = .next t) ∧ (∃ t, exec .ret { State.reset with sp := 0xEFC#16 } = .next t) ∧
    (∃ t, exec (.se 0 0) .reset = .next t ∧ t.pc = State.reset.pc + 2#16) :=
  ⟨⟨_, rfl⟩, ⟨_, rfl⟩, ⟨_, rfl, rfl⟩⟩

theorem witness_FntAddressesTheDigitsSprite :
    ((start 4 0x0F 0 0).reg 4).toNat ≤ 0x0F ∧ 0x0F < ((start 4 0x10 0 0).reg 4).toNat := by decide

theorem witness_BcdStoresThreeDigits :
    State.reset.mem.wf = true ∧ effAddr { State.reset with i := 0xFFD#16 } 2 ≤ 0xFFF ∧
    0xFFF < effAddr { State.reset with i := 0xFFE#16 } 2 := by decide

/-- The top of memory, for the statements about FX55 and FX65, with the shortest and the longest range. -/
theorem witness_StrStoresARangeOfRegisters :
    State.reset.mem.wf = true ∧ effAddr { State.reset with i := 0xFF0#16 } (15 : Reg).val ≤ 0xFFF ∧
    0xFFF < effAddr { State.reset with i := 0xFF1#16 } (15 : Reg).val ∧
    effAddr { State.reset with i := 0xFFF#16 } (0 : Reg).val ≤ 0xFFF ∧
    0xFFF < effAddr { State.reset with i := 0x1000#16 } (0 : Reg).val := by decide

theorem witness_LdrLoadsARangeOfRegisters : (3 : Reg) ≤ 3 ∧ effAddr { State.reset with i := 0xFFC#16 } (3 : Reg).val ≤ 0xFFF ∧
    0xFFF < effAddr { State.reset with i := 0xFFD#16 } (3 : Reg).val := by decide

theorem witness_OnlyFourInstructionsWriteTheIndexRegister :
    (∃ t, exec (.adi 1) .reset = .next t) ∧ Action.tickDelay ≠ .step ∧ Action.tickDelay ≠ .init :=
  ⟨⟨_, rfl⟩, by decide, by decide⟩

theorem witness_OnlyStoresWriteMemoryAndOnlyDrawsTheFramebuffer :
    (∃ t, exec (.bcd 1) .reset = .next t) ∧ (∃ t, exec (.drw 0 1 4) .reset = .next t) ∧
    Action.loadProgram [1#8] ≠ .step ∧ Action.loadProgram [1#8] ≠ .init :=
  ⟨⟨_, rfl⟩, ⟨_, rfl⟩, by decide, by decide⟩

/-- The last word, the last byte, and the first address past each. -/
theorem witness_MemoryReadsBackWhatWasWritten :
    State.reset.mem.wf = true ∧ (∃ t, writeWord .reset 0xFFE 0x1234#16 = .ok t) ∧ (∃ t, writeByte .reset 0xFFF 0x12#8 = .ok t) ∧
    readWord .reset 0xFFF = .error (.addressOutOfRange 0xFFF) ∧
    readByte .reset 0x1000 = .error (.addressOutOfRange 0x1000) := ⟨by decide, ⟨_, rfl⟩, ⟨_, rfl⟩, rfl, rfl⟩

theorem witness_AStoreToCodeIsFetchedNext :
    let s : State := { start 0 0x6B 1 0x77 with i := 0x200#16 }
    s.mem.wf = true ∧ 1 ≤ (1 : Reg).val ∧ s.i = s.pc ∧ ∃ t, exec (.str 1) s = .next t :=
  ⟨by decide, by decide, rfl, _, rfl⟩

/-- No row, the last column, the last address of the byte; a cell that gets smaller, and one that does not; a column and an
address just out of range. -/
theorem witness_DrwXorsOneColumnAndReportsCollision :
    (Instr.drw 0 1 15).wellFormed = true ∧ (Instr.drw 0 1 0).wellFormed = true ∧
    ((start 0 63 1 0).reg 0).toNat < 64 ∧ ({ State.reset with i := 0xFFF#16 } : State).i.toNat ≤ 0xFFF ∧
    readByte .reset 0 = .ok 0xF0#8 ∧ (((0xF0#8 : Byte) ^^^ 0xF0#8).toNat < (0xF0#8).toNat) ∧
    ((0x00#8 : Byte).toNat ≤ (0x00#8 ^^^ 0xF0#8).toNat) ∧
    63 < ((start 0 64 1 0).reg 0).toNat ∧ 0xFFF < ({ State.reset with i := 0x1000#16 } : State).i.toNat :=
  ⟨by decide, by decide, by decide, by decide, rfl, by decide, by decide, by decide, by decide⟩

theorem witness_DrawingTwiceRestoresTheFramebuffer :
    (Instr.drw 0 1 4).wellFormed = true ∧ (0 : Reg) ≠ 15 ∧ (1 : Reg) ≠ 15 ∧
    ∃ t, exec (.drw 0 1 4) (start 0 63 1 30) = .next t := ⟨by decide, by decide, by decide, _, rfl⟩

theorem witness_SkipsOnAKey :
    ((start 5 0x0F 0 0).reg 5).toNat = (15 : Key).val ∧ 0x0F < ((start 5 0x10 0 0).reg 5).toNat := by decide

theorem witness_KeyThenNotificationDepositsTheKey : Fetches (at200 0xF40A) (.key 4) :=
  ⟨rfl, 0xF40A#16, rfl, by decide⟩

theorem witness_NotificationActsOnlyWhileWaiting :
    State.reset.mode = .running ∧ waiting.mode = .waitingForKey ∧
    readWord waiting (waiting.pc - 2#16).toNat = .ok 0xF40A#16 ∧ (4 : Reg).val = (0xF40A#16).toNat / 256 % 16 ∧
    MachineInv waiting := ⟨rfl, rfl, rfl, by decide, by decide⟩

theorem witness_OnlyKeyEntersAndOnlyNotificationOrInitLeavesTheWait :
    (at200 0xF40A).mode = .running ∧ (act .step (at200 0xF40A)).1.mode = .waitingForKey ∧
    waiting.mode = .waitingForKey ∧ (act .init waiting).1.mode = .running := by decide

theorem witness_OnlyTheInputLayerChangesTheKeyState : ∀ k b, Action.step ≠ .keyChange k b := by simp

theorem witness_ResetHasTheGivenValues : (79 : Nat) < 80 ∧ (80 : Nat) ≤ 80 ∧ (80 : Nat) ≤ 0xFFF := by decide

theorem witness_LoadProgramCopiesTheBytesOrNothing :
    State.reset.mem.wf = true ∧ (List.replicate 3232 0xFF#8).length ≤ Config.maxProgramBytes ∧
    0 < (List.replicate 3232 0xFF#8).length ∧ Config.maxProgramBytes < (List.replicate 3233 0xFF#8).length := by
  rw [List.length_replicate, List.length_replicate]; decide

theorem witness_AJumpToItselfChangesNothing : IsFinal (at200 0x1200) :=
  ⟨0x200#12, ⟨rfl, 0x1200#16, rfl, by decide⟩, by decide⟩

theorem witness_EveryStepKeepsTheInvariant :
    MachineInv (at200 0x2300) ∧ (∃ t, step (at200 0x2300) = .next t) ∧
    MachineInv (at200 0xF40A) ∧ ∃ t, step (at200 0xF40A) = .next t := ⟨by decide, ⟨_, rfl⟩, by decide, ⟨_, rfl⟩⟩

theorem witness_EveryReachableStateMeetsTheInvariant : Reachable (act .step (init .reset)).1 :=
  .act .step _ (.init .reset)

end Sys2Proof.Tests
end

/-! ## What may be written: one frame for every instruction and every action

`KeepsData` is the model's frame `Keeps` (Safety) as data: memory and the framebuffer are the same lists, not only read
alike. `mayWrite` says which fields an instruction may write, `actionMayWrite` which an action may; `exec_keepsData` and
`act_keepsData` say that nothing else changes. -/

namespace Sys2Proof.Machine

section Frames

variable {w : Writes} {i : Instr} {s t : State}

/-- From `s` to `t` no field changed but those that `w` names, memory and the framebuffer as data. -/
structure KeepsData (w : Writes) (s t : State) : Prop where
  regs : ∀ r, r ∉ w.regs → t.reg r = s.reg r
  i : w.i = false → t.i = s.i
  pc : w.pc = false → t.pc = s.pc
  sp : w.sp = false → t.sp = s.sp
  mode : w.mode = false → t.mode = s.mode
  mem : w.mem = false → t.mem = s.mem
  frame : w.frame = false → t.frame = s.frame
  keys : w.keys = false → t.keys = s.keys
  dt : w.dt = false → t.dt = s.dt
  st : w.st = false → t.st = s.st
  draws : w.draws = false → t.draws = s.draws
  schedule : t.schedule = s.schedule

/-- The same data reads alike. -/
theorem KeepsData.keeps (h : KeepsData w s t) : Keeps w s t where
  regs := h.regs
  i := h.i
  pc := h.pc
  sp := h.sp
  mode := h.mode
  mem hw := readByte_congr (h.mem hw)
  frame hw x y := by rw [State.cell, State.cell, h.frame hw]
  keys := h.keys
  dt := h.dt
  st := h.st
  draws := h.draws
  schedule := h.schedule

/-- An action that changes nothing keeps everything. -/
theorem KeepsData.refl (w : Writes) (s : State) : KeepsData w s s := by constructor <;> intros <;> rfl

/-! ### The updates of the state -/

theorem keepsData_setReg (s : State) (x : Reg) (b : Byte) : KeepsData { regs := [x] } s (s.setReg x b) := by
  constructor <;> simp +contextual

theorem keepsData_setResultAndFlag (s : State) (x : Reg) (b : Byte) (c : Bool) :
    KeepsData { regs := [x, vf] } s (setResultAndFlag s x b c) := by
  constructor <;> simp +contextual [setResultAndFlag]

theorem keepsData_skipIf (s : State) (c : Bool) : KeepsData { pc := true } s (skipIf c s) := by
  constructor <;> simp [State.reg]

theorem keepsData_setI (s : State) (a : Word) : KeepsData { i := true } s (setI s a) := by
  constructor <;> simp [State.reg]

theorem keepsData_mem (s : State) (m : Memory) : KeepsData { mem := true } s { s with mem := m } := by
  constructor <;> simp [State.reg]

/-! ### Instructions that can fault: the next state, where there is one -/

theorem execRet_next (h : exec .ret s = .next t) : s.sp.toNat < Config.stackBaseAddr ∧ t = { s with
    sp := s.sp + 2#16, pc := wordOfBytes (s.mem.get (s.sp.toNat + 2)) (s.mem.get (s.sp.toNat + 3)) } := by
  rcases execRet_cases s with ⟨_, e⟩ | ⟨hsp, e⟩
  · cases e.symm.trans h
  · cases e.symm.trans h; exact ⟨hsp, rfl⟩

theorem execCall_next {nnn : Addr12} (h : exec (.call nnn) s = .next t) :
    Config.stackLimit ≤ s.sp.toNat ∧ s.sp.toNat ≤ 0xFFE ∧ t = { s with
      mem := (s.mem.set s.sp.toNat (hiByte s.pc)).set (s.sp.toNat + 1) (loByte s.pc)
      sp := s.sp - 2#16, pc := addrLiteral nnn } := by
  rcases execCall_cases nnn s with ⟨_, e⟩ | ⟨_, e⟩ | ⟨hlo, hhi, e⟩
  · cases e.symm.trans h
  · cases e.symm.trans h
  · cases e.symm.trans h; exact ⟨hlo, hhi, rfl⟩

theorem execFnt_next {x : Reg} (h : exec (.fnt x) s = .next t) : ∃ a, t = setI s a := by
  rcases execFnt_cases x s with ⟨_, e⟩ | ⟨_, e⟩
  · cases e.symm.trans h
  · cases e.symm.trans h; exact ⟨_, rfl⟩

theorem execBcd_next {x : Reg} (h : exec (.bcd x) s = .next t) :
    s.i.toNat + 3 ≤ 0x1000 ∧ t = { s with mem := s.mem.setBytes s.i.toNat (bcdDigits (s.reg x)) } := by
  rcases execBcd_cases x s with ⟨hi, e⟩ | ⟨_, e⟩
  · cases e.symm.trans h; exact ⟨hi, rfl⟩
  · cases e.symm.trans h

theorem execStr_next {x : Reg} (h : exec (.str x) s = .next t) :
    s.i.toNat + x.val ≤ 0xFFF ∧ t = { s with mem := s.mem.setBytes s.i.toNat (regsUpTo s x) } := by
  rcases execStr_cases x s with ⟨hi, e⟩ | ⟨_, e⟩
  · cases e.symm.trans h; exact ⟨hi, rfl⟩
  · cases e.symm.trans h

theorem execLdr_next {x : Reg} (h : exec (.ldr x) s = .next t) :
    s.i.toNat + x.val ≤ 0xFFF ∧
      t = s.setRegsFrom 0 ((List.range (x.val + 1)).map fun k => s.mem.get (s.i.toNat + k)) := by
  rcases execLdr_cases x s with ⟨hi, e⟩ | ⟨_, e⟩
  · cases e.symm.trans h; exact ⟨hi, rfl⟩
  · cases e.symm.trans h

theorem execSkp_next {x : Reg} (h : exec (.skp x) s = .next t) : ∃ c, t = skipIf c s := by
  rcases execSkp_cases x s with ⟨_, e⟩ | ⟨_, e⟩
  · cases e.symm.trans h
  · cases e.symm.trans h; exact ⟨_, rfl⟩

theorem execSknp_next {x : Reg} (h : exec (.sknp x) s = .next t) : ∃ c, t = skipIf c s := by
  rcases execSknp_cases x s with ⟨_, e⟩ | ⟨_, e⟩
  · cases e.symm.trans h
  · cases e.symm.trans h; exact ⟨_, rfl⟩

/-- The draw loop writes cells and nothing else, however many rows it has (43_display.md R111). -/
theorem drawRows_frame {x y : Byte} {n k : Nat} {f g : Bool} (h : drawRows x y n k s f = .ok (t, g)) :
    t = { s with frame := t.frame } := by
  induction n generalizing k s f with
  | zero => cases h; rfl
  | succ n ih =>
    rw [drawRows] at h
    rcases drawRow_cases x y k s f with ⟨_, e⟩ | ⟨_, _, e⟩ | ⟨_, _, e⟩
    · rw [e] at h; cases h
    · rw [e] at h; cases h
    · simp only [e] at h
      -- `ih` is about the state after one row, which differs from `s` in its framebuffer alone
      have ht := ih h
      exact ht

theorem execDrw_next {x y : Reg} {n : Nat} (h : exec (.drw x y n) s = .next t) :
    ∃ (m : Framebuffer) (g : Bool), t = ({ s with frame := m } : State).setReg vf (flagByte g) := by
  cases hd : drawRows (s.reg x) (s.reg y) n 0 s false with
  | error e => simp [exec, execDrw, hd, raise] at h
  | ok p =>
    obtain ⟨u, g⟩ := p
    simp only [exec, execDrw, hd, Host.Outcome.next.injEq] at h
    exact ⟨u.frame, g, by rw [← drawRows_frame hd, h]⟩

/-! ### Every instruction -/

/-- The registers an instruction may write: its destination, and `VF` where it is a flag instruction (10_state.md R11). -/
def writtenRegs (i : Instr) : List Reg := if writesFlag i then destRegs i ++ [vf] else destRegs i

/-- What an instruction may write: the state's fields other than the registers each have few writers (10_state.md). -/
def mayWrite : Instr → Writes
  | .cls => { frame := true }
  | .drw _ _ _ => { regs := [vf], frame := true }
  | .ret => { pc := true, sp := true }
  | .jp _ => { pc := true }
  | .call _ => { pc := true, sp := true, mem := true }
  | .seb _ _ => { pc := true }
  | .sneb _ _ => { pc := true }
  | .se _ _ => { pc := true }
  | .sne _ _ => { pc := true }
  | .skp _ => { pc := true }
  | .sknp _ => { pc := true }
  | .mvi _ => { i := true }
  | .mvi0 _ => { i := true }
  | .adi _ => { i := true }
  | .fnt _ => { i := true }
  | .bcd _ => { mem := true }
  | .str _ => { mem := true }
  | .key _ => { mode := true }
  | .sdt _ => { dt := true }
  | .sst _ => { st := true }
  | .rnd x _ => { regs := [x], draws := true }
  | i => { regs := writtenRegs i }

theorem mayWrite_regs (i : Instr) : (mayWrite i).regs = writtenRegs i := by cases i <;> rfl

theorem mayWrite_keys (i : Instr) : (mayWrite i).keys = false := by cases i <;> rfl

/-- Only ANNN, BNNN, FX1E and FX29 may write `I` (R12). -/
theorem mayWrite_i (h : (mayWrite i).i = true) :
    (∃ n, i = .mvi n) ∨ (∃ n, i = .mvi0 n) ∨ (∃ x, i = .adi x) ∨ ∃ x, i = .fnt x := by
  cases i <;> simp [mayWrite] at h ⊢

/-- Beside the fetch only jumps, calls, returns and skips may write `PC` (R13). -/
theorem mayWrite_pc (h : (mayWrite i).pc = true) :
    i = .ret ∨ (∃ n, i = .jp n) ∨ (∃ n, i = .call n) ∨ isSkip i = true := by
  cases i <;> simp [mayWrite, isSkip] at h ⊢

/-- Only returns and calls may write `SP` (R14). -/
theorem mayWrite_sp (h : (mayWrite i).sp = true) : i = .ret ∨ ∃ n, i = .call n := by
  cases i <;> simp [mayWrite] at h ⊢

/-- Only FX0A may write the mode (R15). -/
theorem mayWrite_mode (h : (mayWrite i).mode = true) : ∃ x, i = .key x := by
  cases i <;> simp [mayWrite] at h ⊢

/-- Only 2NNN, FX33 and FX55 may write memory (20_memory.md R30). -/
theorem mayWrite_mem (h : (mayWrite i).mem = true) : (∃ n, i = .call n) ∨ (∃ x, i = .bcd x) ∨ ∃ x, i = .str x := by
  cases i <;> simp [mayWrite] at h ⊢

/-- Only 00E0 and DXYN may write the framebuffer (R18). -/
theorem mayWrite_frame (h : (mayWrite i).frame = true) : i = .cls ∨ ∃ x y n, i = .drw x y n := by
  cases i <;> simp [mayWrite] at h ⊢

/-- An instruction changes nothing but what `mayWrite` names. -/
theorem exec_keepsData (h : exec i s = .next t) : KeepsData (mayWrite i) s t := by
  cases i with
  | cls => cases h; constructor <;> simp [State.reg, mayWrite]
  | ret => obtain ⟨_, rfl⟩ := execRet_next h; constructor <;> simp [State.reg, mayWrite]
  | jp nnn => cases h; constructor <;> simp [State.reg, mayWrite]
  | call nnn => obtain ⟨_, _, rfl⟩ := execCall_next h; constructor <;> simp [State.reg, mayWrite]
  | seb x nn => cases h; exact keepsData_skipIf s _
  | sneb x nn => cases h; exact keepsData_skipIf s _
  | se x y => cases h; exact keepsData_skipIf s _
  | sne x y => cases h; exact keepsData_skipIf s _
  | skp x => obtain ⟨c, rfl⟩ := execSkp_next h; exact keepsData_skipIf s c
  | sknp x => obtain ⟨c, rfl⟩ := execSknp_next h; exact keepsData_skipIf s c
  | ldb x nn => cases h; exact keepsData_setReg s x _
  | addb x nn => cases h; exact keepsData_setReg s x _
  | mov x y => cases h; exact keepsData_setReg s x _
  | or x y => cases h; exact keepsData_setReg s x _
  | and x y => cases h; exact keepsData_setReg s x _
  | xor x y => cases h; exact keepsData_setReg s x _
  | gdt x => cases h; exact keepsData_setReg s x _
  | add x y => cases h; exact keepsData_setResultAndFlag s x _ _
  | sub x y => cases h; exact keepsData_setResultAndFlag s x _ _
  | shr x y => cases h; exact keepsData_setResultAndFlag s x _ _
  | subn x y => cases h; exact keepsData_setResultAndFlag s x _ _
  | shl x y => cases h; exact keepsData_setResultAndFlag s x _ _
  | mvi nnn => cases h; exact keepsData_setI s _
  | mvi0 nnn => cases h; exact keepsData_setI s _
  | adi x => cases h; exact keepsData_setI s _
  | fnt x => obtain ⟨a, rfl⟩ := execFnt_next h; exact keepsData_setI s a
  | rnd x nn => cases h; constructor <;> simp +contextual [mayWrite]
  | drw x y n =>
    obtain ⟨m, g, rfl⟩ := execDrw_next h
    have hreg : ∀ r, ({ s with frame := m } : State).reg r = s.reg r := fun _ => rfl
    constructor <;> simp +contextual [mayWrite, hreg]
  | key x => cases h; constructor <;> simp [State.reg, mayWrite]
  | sdt x => cases h; constructor <;> simp [State.reg, mayWrite]
  | sst x => cases h; constructor <;> simp [State.reg, mayWrite]
  | bcd x => obtain ⟨_, rfl⟩ := execBcd_next h; exact keepsData_mem s _
  | str x => obtain ⟨_, rfl⟩ := execStr_next h; exact keepsData_mem s _
  | ldr x =>
    obtain ⟨_, rfl⟩ := execLdr_next h
    constructor <;> simp +contextual [mayWrite, writtenRegs, writesFlag, destRegs, reg_setRegsFrom]

/-- A flag instruction leaves 0 or 1 in `VF` (R11). -/
theorem exec_flag (hw : writesFlag i = true) (h : exec i s = .next t) :
    ∃ c, t.reg vf = flagByte c := by
  cases i with
  | add x y => cases h; exact ⟨_, reg_setReg ..⟩
  | sub x y => cases h; exact ⟨_, reg_setReg ..⟩
  | shr x y => cases h; exact ⟨_, reg_setReg ..⟩
  | subn x y => cases h; exact ⟨_, reg_setReg ..⟩
  | shl x y => cases h; exact ⟨_, reg_setReg ..⟩
  | drw x y n => obtain ⟨m, g, rfl⟩ := execDrw_next h; exact ⟨g, reg_setReg ..⟩
  | _ => cases hw

/-- A skip leaves `PC` or moves it 2 further on (40_control_flow.md R70). -/
theorem exec_skip_pc (hi : isSkip i = true) (h : exec i s = .next t) :
    t.pc = s.pc ∨ t.pc = s.pc + 2#16 := by
  have hs : ∃ c, t = skipIf c s := by
    cases i with
    | seb x nn => cases h; exact ⟨_, rfl⟩
    | sneb x nn => cases h; exact ⟨_, rfl⟩
    | se x y => cases h; exact ⟨_, rfl⟩
    | sne x y => cases h; exact ⟨_, rfl⟩
    | skp x => exact execSkp_next h
    | sknp x => exact execSknp_next h
    | _ => cases hi
  obtain ⟨c, rfl⟩ := hs
  cases c with
  | false => exact .inl rfl
  | true => exact .inr rfl

end Frames

end Sys2Proof.Machine

/-! ## Every action of every agent -/

namespace Sys2Proof.Machine

section Actions

variable {s : State}

/-- What the engine and `init` leave: the key state is the input layer's (10_state.md R19). -/
def allButKeys : Writes :=
  { regs := List.finRange 16, i := true, pc := true, sp := true, mode := true, mem := true, frame := true
    dt := true, st := true, draws := true }

/-- What an action may write (00_scope.md R4). -/
def actionMayWrite : Action → Writes
  | .step => allButKeys
  | .init => allButKeys
  | .loadProgram _ => { mem := true }
  | .framebuffer => {}
  | .notifyKeyPressed _ => { regs := List.finRange 16, mode := true }
  | .keyChange _ _ => { keys := true }
  | .tickDelay => { dt := true }
  | .tickSound => { st := true }

/-- Everything the engine's step does to the state: nothing, when it waits or faults, or the instruction it fetched. -/
theorem act_step_cases (s : State) :
    (act .step s).1 = s ∨ ∃ i, Fetches s i ∧ exec i (advancePc s) = .next (act .step s).1 := by
  rcases engineStep_cases s with ⟨_, e⟩ | ⟨_, _, e⟩ | ⟨w, _, _, _, e⟩ | ⟨w, i, hm, hf, hd, e⟩
  · exact .inl (by simp [act, e])
  · exact .inl (by simp [act, e])
  · exact .inl (by simp [act, e])
  · cases hx : exec i (advancePc s) with
    | next t => exact .inr ⟨i, ⟨hm, w, hf, hd⟩, by simp [act, e, hx]⟩
    | fault f => exact .inl (by simp [act, e, hx])
    | refused r => exact .inl (by simp [act, e, hx])

/-- A waiting engine's step changes nothing (30_encoding.md R55). -/
theorem act_step_of_waiting (h : s.mode = .waitingForKey) : (act .step s).1 = s := by
  rcases act_step_cases s with e | ⟨i, ⟨hm, _⟩, _⟩
  · exact e
  · cases h.symm.trans hm

/-- Everything a load does to the state (70_reset_and_hazards.md R162). -/
theorem act_loadProgram_cases (bs : List Byte) (s : State) :
    (act (.loadProgram bs) s).1 = s ∨
    (bs.length ≤ Config.maxProgramBytes ∧
      (act (.loadProgram bs) s).1 = { s with mem := s.mem.setBytes Config.programLoadAddr bs }) := by
  rcases loadProgram_cases bs s with ⟨_, e⟩ | ⟨hl, e⟩
  · exact .inl (by simp [act, e])
  · exact .inr ⟨hl, by simp [act, e]⟩

/-- Everything a notification does to the state (60_exceptions.md R145). -/
theorem act_notifyKeyPressed_cases (k : Key) (s : State) :
    (act (.notifyKeyPressed k) s).1 = s ∨
    ∃ x b, (act (.notifyKeyPressed k) s).1 = { s.setReg x b with mode := .running } := by
  rcases notifyKeyPressed_cases k s with ⟨_, e⟩ | ⟨_, _, e⟩ | ⟨w, _, _, e⟩
  · exact .inl (by simp [act, e])
  · exact .inl (by simp [act, e])
  · exact .inr ⟨opX w, BitVec.ofNat 8 k.val, by simp only [act, e]⟩

/-- An action changes nothing but what `actionMayWrite` names. -/
theorem act_keepsData (a : Action) (s : State) : KeepsData (actionMayWrite a) s (act a s).1 := by
  cases a with
  | step =>
    rcases act_step_cases s with e | ⟨i, _, hx⟩
    · rw [e]; exact .refl _ s
    · have hk := exec_keepsData hx
      constructor <;> simp [actionMayWrite, allButKeys, hk.keys (mayWrite_keys i), hk.schedule]
  | init => constructor <;> simp [actionMayWrite, allButKeys, act]
  | loadProgram bs =>
    rcases act_loadProgram_cases bs s with e | ⟨_, e⟩
    · rw [e]; exact .refl _ s
    · rw [e]; exact keepsData_mem s _
  | framebuffer => exact .refl _ s
  | notifyKeyPressed k =>
    rcases act_notifyKeyPressed_cases k s with e | ⟨x, b, e⟩
    · rw [e]; exact .refl _ s
    · rw [e]; constructor <;> simp [actionMayWrite]
  | keyChange k b => constructor <;> simp [actionMayWrite, act, State.reg]
  | tickDelay => constructor <;> simp [actionMayWrite, act, State.reg]
  | tickSound => constructor <;> simp [actionMayWrite, act, State.reg]

end Actions

/-! ## The invariant -/

section Invariant

variable {i : Instr} {s t : State}

/-- The canonical form of memory survives every instruction. -/
theorem exec_mem_wf (h : exec i s = .next t) (hw : s.mem.wf = true) : t.mem.wf = true := by
  cases hm : (mayWrite i).mem with
  | false => rw [(exec_keepsData h).mem hm]; exact hw
  | true =>
    rcases mayWrite_mem hm with ⟨nnn, rfl⟩ | ⟨x, rfl⟩ | ⟨x, rfl⟩
    · obtain ⟨_, hsp, rfl⟩ := execCall_next h
      have hlt : s.sp.toNat + 1 < Config.memBytes := by simp only [Config.memBytes]; omega
      exact Memory.wf_set _ hlt (Memory.wf_set _ (by omega) hw)
    · obtain ⟨hi, rfl⟩ := execBcd_next h
      exact Memory.wf_setBytes _ hi hw
    · obtain ⟨hi, rfl⟩ := execStr_next h
      refine Memory.wf_setBytes _ ?_ hw
      rw [regsUpTo_length]; simp only [Config.memBytes]; omega

/-- A return and a call keep `SP` even and between its bounds: each tests the bound it moves towards (R25). -/
theorem exec_stackInv (h : exec i s = .next t) (hs : StackInv s) : StackInv t := by
  cases hm : (mayWrite i).sp with
  | false => simpa only [StackInv, (exec_keepsData h).sp hm] using hs
  | true =>
    obtain ⟨heven, hlo, hhi⟩ := hs
    simp only [Config.stackLimit, Config.stackBaseAddr] at hlo hhi
    rcases mayWrite_sp hm with rfl | ⟨nnn, rfl⟩
    · obtain ⟨hlt, rfl⟩ := execRet_next h
      simp only [Config.stackBaseAddr] at hlt
      simp only [StackInv, Config.stackLimit, Config.stackBaseAddr]
      rw [pop_sp_toNat hlt]; omega
    · obtain ⟨hge, _, rfl⟩ := execCall_next h
      simp only [Config.stackLimit] at hge
      simp only [StackInv, Config.stackLimit, Config.stackBaseAddr]
      bv_omega

/-- Only FX0A enters the wait, and it was fetched from the two bytes at `PC - 2`. -/
theorem exec_waitInv (hf : Fetches s i) (h : exec i (advancePc s) = .next t) : WaitInv t := by
  obtain ⟨hrun, w, hw, _⟩ := hf
  intro hwait
  cases hm : (mayWrite i).mode with
  | false => rw [(exec_keepsData h).mode hm, advancePc_mode, hrun] at hwait; cases hwait
  | true =>
    obtain ⟨x, rfl⟩ := mayWrite_mode hm
    have hpc : t.pc - 2#16 = s.pc := by rw [(exec_keepsData h).pc rfl, advancePc_pc, BitVec.add_sub_cancel]
    rw [hpc, inRange_iff]
    have := (fetch_eq_ok.mp hw).1
    omega

/-- The invariant speaks of memory, `SP`, the mode and `PC` alone, so what leaves these keeps it. -/
theorem KeepsData.machineInv {w : Writes} (h : KeepsData w s t) (hi : MachineInv s) (hmem : w.mem = false)
    (hsp : w.sp = false) (hmode : w.mode = false) (hpc : w.pc = false) : MachineInv t := by
  simpa only [MachineInv, StackInv, WaitInv, h.mem hmem, h.sp hsp, h.mode hmode, h.pc hpc] using hi

/-- `FONT` is all that memory holds at reset (R23). -/
theorem readByte_reset {a : Nat} (h : a ≤ 0xFFF) : readByte .reset a = .ok (Config.font.getD a 0#8) :=
  readByte_in h

theorem init_machineInv (s : State) : MachineInv (init s) := by
  have hstack : StackInv State.reset := by decide
  exact ⟨rfl, hstack, nofun⟩

/-- Every action of every agent keeps the invariant. -/
theorem act_machineInv (a : Action) (hi : MachineInv s) : MachineInv (act a s).1 := by
  have hk := act_keepsData a s
  have ⟨hmem, hstack, hwait⟩ := hi
  cases a with
  | step =>
    rcases act_step_cases s with e | ⟨i, hf, hx⟩
    · rw [e]; exact hi
    · exact ⟨exec_mem_wf hx hmem, exec_stackInv hx hstack, exec_waitInv hf hx⟩
  | init => exact init_machineInv s
  | loadProgram bs =>
    rcases act_loadProgram_cases bs s with e | ⟨hl, e⟩
    · rw [e]; exact hi
    · rw [e]
      have hfit := maxProgramBytes_fits
      exact ⟨Memory.wf_setBytes bs (by omega) hmem, hstack, hwait⟩
  | notifyKeyPressed k =>
    rcases act_notifyKeyPressed_cases k s with e | ⟨x, b, e⟩
    · rw [e]; exact hi
    · rw [e]; exact ⟨hmem, hstack, nofun⟩
  | framebuffer => exact hi
  | keyChange k b => exact hk.machineInv hi rfl rfl rfl rfl
  | tickDelay => exact hk.machineInv hi rfl rfl rfl rfl
  | tickSound => exact hk.machineInv hi rfl rfl rfl rfl

/-- Every reachable state meets the invariant: `init` gives it and every action keeps it. -/
theorem Reachable.machineInv (h : Reachable s) : MachineInv s := by
  induction h with
  | init s => exact init_machineInv s
  | act a s _ ih => exact act_machineInv a ih

/-- `SP` in its bounds makes the stack's depth exact, and 48 at most (R25). -/
theorem StackInv.depth (h : StackInv s) : 2 * stackDepth s = 0xEFE - s.sp.toNat ∧ stackDepth s ≤ 48 := by
  obtain ⟨heven, hlo, hhi⟩ := h
  simp only [Config.stackLimit, Config.stackBaseAddr] at hlo hhi
  simp only [stackDepth, Config.stackBaseAddr]
  omega

/-- While the pending FX0A can be read, a notification answers Ok (60_exceptions.md R145). -/
theorem WaitInv.notify_ok (h : WaitInv s) (k : Key) : (act (.notifyKeyPressed k) s).2 = .ok := by
  rcases notifyKeyPressed_cases k s with ⟨_, e⟩ | ⟨hm, hpc, _⟩ | ⟨w, _, _, e⟩
  · simp [act, e]
  · have := inRange_iff.mp (h hm)
    omega
  · simp [act, e]

end Invariant

/-! ## The obligations of 10_state.md -/

/-- Settles O58: the step is some agent's action, and every action keeps the invariant. -/
theorem everyStepKeepsTheInvariant : Obligations.EveryStepKeepsTheInvariant := by
  intro s t hi h
  obtain ⟨a, u, hu, rfl⟩ := step_next h
  rcases hu with rfl | ⟨as, rfl⟩
  · exact act_machineInv a hi
  · exact act_machineInv a hi

/-- Settles O23: the flag is written last, and the frame lists every other register that is written. -/
theorem onlyNamedRegistersAndTheFlagAreWritten : Obligations.OnlyNamedRegistersAndTheFlagAreWritten := by
  intro i s t h
  refine ⟨fun hw => ?_, fun r hr hvf => (exec_keepsData h).regs r ?_⟩
  · obtain ⟨c, hc⟩ := exec_flag hw h
    cases c with
    | false => exact .inl hc
    | true => exact .inr hc
  · rw [mayWrite_regs, writtenRegs]
    split
    next hw => simpa [hr, vf] using hvf hw
    next => exact hr

/-- Settles O30: the writers of `PC` and `SP` by the frame, and by how much from each writer. -/
theorem onlyControlFlowWritesPcAndSp : Obligations.OnlyControlFlowWritesPcAndSp := by
  intro i s t h
  have hk := exec_keepsData h
  constructor
  · cases hpc : (mayWrite i).pc with
    | false => exact .inl (hk.pc hpc)
    | true =>
      rcases mayWrite_pc hpc with hi | hi | hi | hi
      · exact .inr (.inl hi)
      · exact .inr (.inr (.inl hi))
      · exact .inr (.inr (.inr (.inl hi)))
      · rcases exec_skip_pc hi h with e | e
        · exact .inl e
        · exact .inr (.inr (.inr (.inr ⟨hi, e⟩)))
  · cases hsp : (mayWrite i).sp with
    | false => exact .inl (hk.sp hsp)
    | true =>
      rcases mayWrite_sp hsp with rfl | ⟨nnn, rfl⟩
      · obtain ⟨_, rfl⟩ := execRet_next h
        exact .inr (.inl ⟨rfl, rfl⟩)
      · obtain ⟨_, _, rfl⟩ := execCall_next h
        exact .inr (.inr ⟨⟨nnn, rfl⟩, rfl⟩)

/-- Settles O38: the writers of `I` by the frames of the instructions and of the actions. -/
theorem onlyFourInstructionsWriteTheIndexRegister : Obligations.OnlyFourInstructionsWriteTheIndexRegister := by
  constructor
  · intro i s t h
    cases hi : (mayWrite i).i with
    | false => exact .inl ((exec_keepsData h).i hi)
    | true => exact .inr (mayWrite_i hi)
  · intro a s hstep hinit
    refine (act_keepsData a s).i ?_
    cases a with
    | step => exact absurd rfl hstep
    | init => exact absurd rfl hinit
    | _ => rfl

/-- Settles O39: the writers of memory and of the framebuffer by the frames of the instructions and of the actions. -/
theorem onlyStoresWriteMemoryAndOnlyDrawsTheFramebuffer :
    Obligations.OnlyStoresWriteMemoryAndOnlyDrawsTheFramebuffer := by
  refine ⟨fun i s t h => ⟨?_, ?_⟩, fun a s hstep hinit => ?_, fun _ => rfl⟩
  · cases hm : (mayWrite i).mem with
    | false => exact .inl ((exec_keepsData h).mem hm)
    | true => exact .inr (mayWrite_mem hm)
  · cases hf : (mayWrite i).frame with
    | false => exact .inl ((exec_keepsData h).frame hf)
    | true => exact .inr (mayWrite_frame hf)
  · have hk := act_keepsData a s
    cases a with
    | step => exact absurd rfl hstep
    | init => exact absurd rfl hinit
    | loadProgram bs => exact ⟨.inr ⟨bs, rfl⟩, hk.frame rfl⟩
    | _ => exact ⟨.inl (hk.mem rfl), hk.frame rfl⟩

/-- Settles O50: of the actions that may write the mode, the engine's step enters the wait by FX0A alone and is nothing
while waiting, and the other two end in RUNNING or where they began. -/
theorem onlyKeyEntersAndOnlyNotificationOrInitLeavesTheWait :
    Obligations.OnlyKeyEntersAndOnlyNotificationOrInitLeavesTheWait := by
  intro a s
  have hmode := (act_keepsData a s).mode
  constructor
  · intro hrun hwait
    have hne : (act a s).1.mode ≠ s.mode := by simp [hrun, hwait]
    cases a with
    | step =>
      rcases act_step_cases s with e | ⟨i, hf, hx⟩
      · exact absurd (by rw [e]) hne
      · cases hm : (mayWrite i).mode with
        | false => exact absurd ((exec_keepsData hx).mode hm) hne
        | true =>
          obtain ⟨x, rfl⟩ := mayWrite_mode hm
          exact ⟨rfl, x, hf⟩
    | init => cases hwait
    | notifyKeyPressed k =>
      rcases act_notifyKeyPressed_cases k s with e | ⟨x, b, e⟩
      · exact absurd (by rw [e]) hne
      · rw [e] at hwait; cases hwait
    | _ => exact absurd (hmode rfl) hne
  · intro hwait hrun
    have hne : (act a s).1.mode ≠ s.mode := by simp [hrun, hwait]
    cases a with
    | step => exact absurd (by rw [act_step_of_waiting hwait]) hne
    | init => exact .inr rfl
    | notifyKeyPressed k => exact .inl ⟨k, rfl⟩
    | _ => exact absurd (hmode rfl) hne

/-- Settles O52: `keyChange` sets one key, and no other action may write the key state. -/
theorem onlyTheInputLayerChangesTheKeyState : Obligations.OnlyTheInputLayerChangesTheKeyState := by
  constructor
  · intro k b s
    refine ⟨setKey k b s, rfl, fun j => ?_, (act_keepsData (.keyChange k b) s).keeps⟩
    simp [keyPressed, Vector.getElem_set, Fin.ext_iff, eq_comm]
  · intro a s ha
    refine (act_keepsData a s).keys ?_
    cases a with
    | keyChange k b => exact absurd rfl (ha k b)
    | _ => rfl

/-- Settles O59: the invariant holds in every reachable state, and the rest follows from it. -/
theorem everyReachableStateMeetsTheInvariant : Obligations.EveryReachableStateMeetsTheInvariant := by
  intro s hr
  have hi := hr.machineInv
  have ⟨_, hstack, hwait⟩ := hi
  obtain ⟨hdepth, hle⟩ := StackInv.depth hstack
  exact ⟨hi, hdepth, hle, WaitInv.notify_ok hwait⟩

/-- Settles O53: an unlisted address reads as `FONT` below 80 and as 0 from there on. -/
theorem resetHasTheGivenValues : Obligations.ResetHasTheGivenValues := by
  refine ⟨fun r => ?_, rfl, rfl, rfl, rfl, fun a ha => readByte_reset (by omega), fun a hlo hhi => ?_, fun x y => ?_,
    rfl, rfl, rfl⟩
  · simp [State.reg, State.reset]
  · rw [readByte_reset hhi, List.getD_eq_default _ _ hlo]
  · simp [State.cell, State.reset]

/-- Settles O57: the reset state is what `init` makes of it. -/
theorem resetMeetsTheInvariant : Obligations.ResetMeetsTheInvariant := ⟨init_machineInv .reset, rfl⟩

end Sys2Proof.Machine

/-! ## Bytes and words of memory: what a write leaves to be read (20_memory.md) -/

namespace Sys2Proof.Machine

section MemoryAccess

variable {s t : State} {m : Memory}

/-! ### The two bytes of a word, as numbers (R31) -/

theorem hiByte_eq_ofNat (w : Word) : hiByte w = BitVec.ofNat 8 (w.toNat / 256) := by
  apply BitVec.eq_of_toNat_eq
  simp [hiByte, Nat.shiftRight_eq_div_pow]

theorem loByte_eq_ofNat (w : Word) : loByte w = BitVec.ofNat 8 (w.toNat % 256) := by
  apply BitVec.eq_of_toNat_eq
  simp [loByte]

/-! ### Reads after writes (R33, R34) -/

/-- A byte read depends on its own cell alone, so cells that are the same data read alike. -/
theorem memSameOutside_of_get {a n : Nat} (h : ∀ c, c < a ∨ a + n ≤ c → t.mem.get c = s.mem.get c) :
    MemSameOutside a n s t := fun c hc => by
  rw [readByte, readByte, h c hc]

/-- A read after a word's high and low byte are written one after the other. -/
theorem Memory.get_set_set {a : Nat} (hi lo : Byte) (ha : a < Config.memBytes) (h : m.wf = true) (c : Nat) :
    ((m.set a hi).set (a + 1) lo).get c = if c = a + 1 then lo else if c = a then hi else m.get c := by
  rw [Memory.get_set _ _ (Memory.wf_set hi ha h), Memory.get_set _ _ h]

/-- A byte write in range reads back and leaves every other byte, the canonical form and the rest of the state. -/
theorem writeByte_reads_back {a : Nat} (b : Byte) (hw : s.mem.wf = true) (ha : a ≤ 0xFFF) :
    ∃ t, writeByte s a b = .ok t ∧ readByte t a = .ok b ∧
      MemSameOutside a 1 s t ∧ t.mem.wf = true ∧ Keeps { mem := true } s t := by
  have hget := Memory.get_set a b hw
  refine ⟨_, writeByte_in b ha, readByte_eq_ok.mpr ⟨ha, by simp [hget]⟩, memSameOutside_of_get fun c hc => ?_,
    Memory.wf_set b (Nat.lt_succ_of_le ha) hw, (keepsData_mem s _).keeps⟩
  rw [hget, if_neg (by omega)]

/-- A word write in range reads back as a word and as its two bytes, the high one first, and leaves every other byte, the
canonical form and the rest of the state. -/
theorem writeWord_reads_back {a : Nat} (w : Word) (hw : s.mem.wf = true) (ha : a ≤ 0xFFE) :
    ∃ t, writeWord s a w = .ok t ∧ readWord t a = .ok w ∧
      readByte t a = .ok (hiByte w) ∧ readByte t (a + 1) = .ok (loByte w) ∧
      MemSameOutside a 2 s t ∧ t.mem.wf = true ∧ Keeps { mem := true } s t := by
  have hfit : a + 1 < Config.memBytes := by simp only [Config.memBytes]; omega
  have hfst : a < Config.memBytes := Nat.lt_of_succ_lt hfit
  have hget := Memory.get_set_set (hiByte w) (loByte w) hfst hw
  refine ⟨_, writeWord_in w ha, readWord_eq_ok.mpr ⟨ha, by simp [hget]⟩,
    readByte_eq_ok.mpr ⟨by omega, by simp [hget]⟩, readByte_eq_ok.mpr ⟨by omega, by simp [hget]⟩,
    memSameOutside_of_get fun c hc => ?_, Memory.wf_set _ hfit (Memory.wf_set _ hfst hw),
    (keepsData_mem s _).keeps⟩
  rw [hget, if_neg (by omega), if_neg (by omega)]

/-- After the registers `V[0..x]` are stored from `a` on, cell `a + r` holds `V[r]` (42_index_memory.md R105). -/
theorem Memory.get_setBytes_regsUpTo {a : Nat} {x r : Reg} (hr : r ≤ x) (ha : a + x.val ≤ 0xFFF) (h : m.wf = true) :
    (m.setBytes a (regsUpTo s x)).get (a + r.val) = s.reg r := by
  have hfit : a + (regsUpTo s x).length ≤ Config.memBytes := by
    rw [regsUpTo_length]; simp only [Config.memBytes]; omega
  rw [Memory.get_setBytes a _ hfit h, if_pos (Nat.le_add_right a r.val), Nat.add_sub_cancel_left,
    regsUpTo_getD s x r hr]

end MemoryAccess

/-! ## The obligations of 20_memory.md -/

/-- Settles O40: a write in range by the laws of memory as data, an access out of range by its bound. -/
theorem memoryReadsBackWhatWasWritten : Obligations.MemoryReadsBackWhatWasWritten := by
  intro s a hw
  refine ⟨fun w ha => ?_, fun b ha => writeByte_reads_back b hw ha,
    fun w ha => ⟨writeWord_out w ha, readWord_out ha⟩, fun b ha => ⟨writeByte_out b ha, readByte_out ha⟩⟩
  rw [← hiByte_eq_ofNat, ← loByte_eq_ofNat]
  exact writeWord_reads_back w hw ha

/-- Settles O41: FX55 leaves `V[0]` and `V[1]` in the two cells at `I`, which are those the fetch reads. -/
theorem aStoreToCodeIsFetchedNext : Obligations.AStoreToCodeIsFetchedNext := by
  intro x s t hw hx hi h
  obtain ⟨hfit, rfl⟩ := execStr_next h
  have h0 : (s.mem.setBytes s.i.toNat (regsUpTo s x)).get s.i.toNat = s.reg 0 :=
    Memory.get_setBytes_regsUpTo (r := 0) (Fin.zero_le x) hfit hw
  have h1 : (s.mem.setBytes s.i.toNat (regsUpTo s x)).get (s.i.toNat + 1) = s.reg 1 :=
    Memory.get_setBytes_regsUpTo (r := 1) hx hfit hw
  refine fetch_eq_ok.mpr ⟨by rw [← hi]; omega, ?_⟩
  rw [← hi, h0, h1, wordOfBytes]

end Sys2Proof.Machine

/-! ## Decoding: the rows of the opcode map, and decode as the inverse of encode (30_encoding.md) -/

namespace Sys2Proof

section DecodeRows

variable {i : Instr} {w : Word}

/-- The instruction of the same kind whose operands are the fields of a word, the operand forms of the opcode map (R53,
R62). -/
def Instr.withFields (w : Word) : Instr → Instr
  | .cls => .cls
  | .ret => .ret
  | .jp _ => .jp (opNNN w)
  | .call _ => .call (opNNN w)
  | .seb _ _ => .seb (opX w) (opNN w)
  | .sneb _ _ => .sneb (opX w) (opNN w)
  | .se _ _ => .se (opX w) (opY w)
  | .ldb _ _ => .ldb (opX w) (opNN w)
  | .addb _ _ => .addb (opX w) (opNN w)
  | .mov _ _ => .mov (opX w) (opY w)
  | .or _ _ => .or (opX w) (opY w)
  | .and _ _ => .and (opX w) (opY w)
  | .xor _ _ => .xor (opX w) (opY w)
  | .add _ _ => .add (opX w) (opY w)
  | .sub _ _ => .sub (opX w) (opY w)
  | .shr _ _ => .shr (opX w) (opY w)
  | .subn _ _ => .subn (opX w) (opY w)
  | .shl _ _ => .shl (opX w) (opY w)
  | .sne _ _ => .sne (opX w) (opY w)
  | .mvi _ => .mvi (opNNN w)
  | .mvi0 _ => .mvi0 (opNNN w)
  | .rnd _ _ => .rnd (opX w) (opNN w)
  | .drw _ _ _ => .drw (opX w) (opY w) (opN w)
  | .skp _ => .skp (opX w)
  | .sknp _ => .sknp (opX w)
  | .gdt _ => .gdt (opX w)
  | .key _ => .key (opX w)
  | .sdt _ => .sdt (opX w)
  | .sst _ => .sst (opX w)
  | .adi _ => .adi (opX w)
  | .fnt _ => .fnt (opX w)
  | .bcd _ => .bcd (opX w)
  | .str _ => .str (opX w)
  | .ldr _ => .ldr (opX w)

/-- Rows do not depend on operands. -/
theorem opcodeRow_withFields (w : Word) (i : Instr) : opcodeRow (i.withFields w) = opcodeRow i := by
  cases i <;> rfl

/-- Every instruction's row is in the map. -/
theorem opcodeRow_mem_opcodeMap (i : Instr) : opcodeRow i ∈ opcodeMap := by
  cases i <;> simp [opcodeMap, instrKinds, opcodeRow]

/-- A well-formed instruction's operands are the fields of its own word (R52). -/
theorem withFields_encode (h : i.wellFormed = true) : i.withFields (encode i) = i := by
  cases i with
  | drw x y n =>
    have hn : n < 16 := of_decide_eq_true h
    simp [Instr.withFields, encode, Nat.mod_eq_of_lt hn]
  | _ => simp [Instr.withFields, encode]

open Laws in
/-- The word of a well-formed instruction is in the instruction's own row (R62). -/
theorem selects_encode : ∀ i : Instr, i.wellFormed = true → (opcodeRow i).selects (encode i) = true
  | .cls => EncodeInOwnRow.cls
  | .ret => EncodeInOwnRow.ret
  | .jp nnn => EncodeInOwnRow.jp nnn
  | .call nnn => EncodeInOwnRow.call nnn
  | .seb x nn => EncodeInOwnRow.seb x nn
  | .sneb x nn => EncodeInOwnRow.sneb x nn
  | .se x y => EncodeInOwnRow.se x y
  | .ldb x nn => EncodeInOwnRow.ldb x nn
  | .addb x nn => EncodeInOwnRow.addb x nn
  | .mov x y => EncodeInOwnRow.mov x y
  | .or x y => EncodeInOwnRow.or x y
  | .and x y => EncodeInOwnRow.and x y
  | .xor x y => EncodeInOwnRow.xor x y
  | .add x y => EncodeInOwnRow.add x y
  | .sub x y => EncodeInOwnRow.sub x y
  | .shr x y => EncodeInOwnRow.shr x y
  | .subn x y => EncodeInOwnRow.subn x y
  | .shl x y => EncodeInOwnRow.shl x y
  | .sne x y => EncodeInOwnRow.sne x y
  | .mvi nnn => EncodeInOwnRow.mvi nnn
  | .mvi0 nnn => EncodeInOwnRow.mvi0 nnn
  | .rnd x nn => EncodeInOwnRow.rnd x nn
  | .drw x y n => EncodeInOwnRow.drw x y n
  | .skp x => EncodeInOwnRow.skp x
  | .sknp x => EncodeInOwnRow.sknp x
  | .gdt x => EncodeInOwnRow.gdt x
  | .key x => EncodeInOwnRow.key x
  | .sdt x => EncodeInOwnRow.sdt x
  | .sst x => EncodeInOwnRow.sst x
  | .adi x => EncodeInOwnRow.adi x
  | .fnt x => EncodeInOwnRow.fnt x
  | .bcd x => EncodeInOwnRow.bcd x
  | .str x => EncodeInOwnRow.str x
  | .ldr x => EncodeInOwnRow.ldr x

/-- Every word of an instruction's row decodes to that kind of instruction with the word's own fields (R54, R62): the row's
mask fixes the fields that `decodeWord` dispatches on. -/
theorem rowDecodesTo_withFields (i : Instr) :
    Machine.RowDecodesTo (opcodeRow i).mask (opcodeRow i).value (fun w => i.withFields w) := by
  intro w h
  cases i with
  | cls | ret =>
    -- the mask keeps the whole word
    obtain rfl : w = _ := (BitVec.and_allOnes (x := w)).symm.trans h
    rfl
  | jp | call | seb | sneb | ldb | addb | mvi | mvi0 | rnd | drw =>
    simp only [opcodeRow] at h
    simp [decodeWord, opG_of_mask h (by decide), Instr.withFields]
  | se | sne | mov | or | and | xor | add | sub | shr | subn | shl =>
    simp only [opcodeRow] at h
    simp [decodeWord, decodeGroup8, opG_of_mask h (by decide), opN_of_mask h (by decide), Instr.withFields]
  | skp | sknp | gdt | key | sdt | sst | adi | fnt | bcd | str | ldr =>
    simp only [opcodeRow] at h
    simp [decodeWord, decodeGroupE, decodeGroupF, opG_of_mask h (by decide), opNN_of_mask h (by decide),
      Instr.withFields]

theorem decodeWord_of_selects (h : (opcodeRow i).selects w = true) : decodeWord w = some (i.withFields w) :=
  rowDecodesTo_withFields i w (eq_of_beq h)

theorem decodeWord_encode (h : i.wellFormed = true) : decodeWord (encode i) = some i := by
  rw [decodeWord_of_selects (selects_encode i h), withFields_encode h]

theorem decode_encodeBytes (h : i.wellFormed = true) (rest : List Byte) :
    decode (encodeBytes i ++ rest) = .ok (i, rest) := by
  simp [encodeBytes, bytesOfWord, decode, Machine.wordOfBytes_hi_lo, decodeWord_encode h]

/-! ### A word that decodes, group by group -/

/-- The instruction `i` is well formed and `w` is its word. -/
def IsWordOf (w : Word) (i : Instr) : Prop := i.wellFormed = true ∧ encode i = w

theorem isWordOf_of_decodeGroup0 (h : decodeGroup0 w = some i) : IsWordOf w i := by
  unfold decodeGroup0 at h
  split at h
  · cases h; exact ⟨rfl, Eq.symm ‹_›⟩
  · split at h
    · cases h; exact ⟨rfl, Eq.symm ‹_›⟩
    · cases h

theorem isWordOf_of_decodeGroup8 (hg : opG w = 0x8) (h : decodeGroup8 w = some i) : IsWordOf w i := by
  unfold decodeGroup8 at h
  split at h <;> cases h <;> exact ⟨rfl, encodeXYN_fields hg ‹_›⟩

theorem isWordOf_of_decodeGroupE (hg : opG w = 0xE) (h : decodeGroupE w = some i) : IsWordOf w i := by
  unfold decodeGroupE at h
  split at h <;> cases h <;> exact ⟨rfl, encodeX_fields hg ‹_›⟩

theorem isWordOf_of_decodeGroupF (hg : opG w = 0xF) (h : decodeGroupF w = some i) : IsWordOf w i := by
  unfold decodeGroupF at h
  split at h <;> cases h <;> exact ⟨rfl, encodeX_fields hg ‹_›⟩

theorem isWordOf_of_decodeWord (h : decodeWord w = some i) : IsWordOf w i := by
  unfold decodeWord at h
  split at h
  next => exact isWordOf_of_decodeGroup0 h
  next hg => cases h; exact ⟨rfl, encodeNNN_fields hg⟩
  next hg => cases h; exact ⟨rfl, encodeNNN_fields hg⟩
  next hg => cases h; exact ⟨rfl, encodeXNN_fields hg⟩
  next hg => cases h; exact ⟨rfl, encodeXNN_fields hg⟩
  next hg =>
    obtain ⟨hn, hi⟩ := Option.ite_none_right_eq_some.mp h
    cases hi
    exact ⟨rfl, encodeXYN_fields hg hn⟩
  next hg => cases h; exact ⟨rfl, encodeXNN_fields hg⟩
  next hg => cases h; exact ⟨rfl, encodeXNN_fields hg⟩
  next hg => exact isWordOf_of_decodeGroup8 hg h
  next hg =>
    obtain ⟨hn, hi⟩ := Option.ite_none_right_eq_some.mp h
    cases hi
    exact ⟨rfl, encodeXYN_fields hg hn⟩
  next hg => cases h; exact ⟨rfl, encodeNNN_fields hg⟩
  next hg => cases h; exact ⟨rfl, encodeNNN_fields hg⟩
  next hg => cases h; exact ⟨rfl, encodeXNN_fields hg⟩
  next hg =>
    cases h
    have hn : opN w = (BitVec.ofNat 4 (opN w)).toNat := (Nat.mod_eq_of_lt (opN_lt w)).symm
    exact ⟨decide_eq_true (opN_lt w), encodeXYN_fields hg hn⟩
  next hg => exact isWordOf_of_decodeGroupE hg h
  next hg => exact isWordOf_of_decodeGroupF hg h
  next => cases h

/-- Decoding is the inverse of encoding on the well-formed instructions (R54, R62). -/
theorem decodeWord_eq_some_iff : decodeWord w = some i ↔ IsWordOf w i :=
  ⟨isWordOf_of_decodeWord, fun ⟨hwf, hw⟩ => hw ▸ decodeWord_encode hwf⟩

/-- A word is in the row of the instruction it decodes to. -/
theorem selects_of_decodeWord (h : decodeWord w = some i) : (opcodeRow i).selects w = true := by
  obtain ⟨hwf, rfl⟩ := decodeWord_eq_some_iff.mp h
  exact selects_encode i hwf

/-! ### A word that does not decode, group by group (R56) -/

theorem decodeGroup0_eq_none : decodeGroup0 w = none ↔ w ≠ 0x00E0#16 ∧ w ≠ 0x00EE#16 := by
  unfold decodeGroup0
  split
  · simp [*]
  · split <;> simp [*]

theorem decodeGroup8_eq_none : decodeGroup8 w = none ↔ opN w ∈ [0x8, 0x9, 0xA, 0xB, 0xC, 0xD, 0xF] := by
  have hlt := opN_lt w
  unfold decodeGroup8
  split
  case h_10 =>
    -- the nine sub-codes are excluded, and the other seven are the list
    interval_cases opN w <;> simp_all
  all_goals simp [*]

theorem decodeGroupE_eq_none : decodeGroupE w = none ↔ (opNN w).toNat ∉ [0x9E, 0xA1] := by
  unfold decodeGroupE
  split <;> simp_all

theorem decodeGroupF_eq_none : decodeGroupF w = none ↔
    (opNN w).toNat ∉ [0x07, 0x0A, 0x15, 0x18, 0x1E, 0x29, 0x33, 0x55, 0x65] := by
  unfold decodeGroupF
  split <;> simp_all

theorem opG_lt (w : Word) : opG w < 16 := (w.extractLsb' 12 4).isLt

/-- A word is invalid where its group rejects it; the groups that are not listed reject none. -/
theorem decodeWord_eq_none_iff : decodeWord w = none ↔
    (opG w = 0x0 ∧ decodeGroup0 w = none) ∨ (opG w = 0x5 ∧ opN w ≠ 0) ∨ (opG w = 0x8 ∧ decodeGroup8 w = none) ∨
    (opG w = 0x9 ∧ opN w ≠ 0) ∨ (opG w = 0xE ∧ decodeGroupE w = none) ∨ (opG w = 0xF ∧ decodeGroupF w = none) := by
  have hlt := opG_lt w
  unfold decodeWord
  split
  case h_17 =>
    -- sixteen groups are all there are
    interval_cases opG w <;> contradiction
  all_goals simp [*]

end DecodeRows

end Sys2Proof

/-! ## The engine's step: fetch, decode, run (30_encoding.md R55) -/

namespace Sys2Proof.Machine

section FetchDecodeRun

variable {i : Instr} {f : Fault} {s : State} {w : Word}

/-- Only the instructions that the fault table lists raise a fault (60_exceptions.md R130). -/
theorem mayFault_of_exec_fault (h : exec i s = .fault f) : mayFault i = true := by
  cases i with
  | ret | call | fnt | bcd | str | ldr | skp | sknp => rfl
  | drw x y n =>
    cases n with
    | zero => cases (execDrw_zero x y s).symm.trans h
    | succ n => exact decide_eq_true n.succ_pos
  | _ => cases h

theorem engineStep_of_invalid (hm : s.mode = .running) (hf : fetch s = .ok w) (hd : decodeWord w = none) :
    engineStep s = .fault (.invalidOpcode w) := by
  simp [engineStep, hm, hf, hd, raise]

theorem engineStep_of_fetches (h : Fetches s i) : engineStep s = exec i (advancePc s) := by
  obtain ⟨hm, w, hf, hd⟩ := h
  simp [engineStep, hm, hf, hd]

theorem engineStep_of_fetch_out (hm : s.mode = .running) (h : 0xFFE < s.pc.toNat) :
    engineStep s = .fault (.addressOutOfRange s.pc.toNat) := by
  simp [engineStep, hm, fetch, readWord_out h, raise]

theorem engineStep_of_waiting (h : s.mode = .waitingForKey) : engineStep s = .next s := by
  simp [engineStep, h]

/-- The engine's action and its answer are its step's outcome. -/
theorem outcomeOf_act_step (s : State) : outcomeOf (act .step s) = engineStep s := by
  simp only [act]
  cases engineStep s <;> rfl

/-- The two bytes at `PC`, read one by one and decoded, are what the engine fetches (R50). -/
theorem fetches_of_bytes {hi lo : Byte} (hm : s.mode = .running) (hhi : readByte s s.pc.toNat = .ok hi)
    (hlo : readByte s (s.pc.toNat + 1) = .ok lo) (hd : decode [hi, lo] = .ok (i, [])) : Fetches s i := by
  obtain ⟨-, rfl⟩ := readByte_eq_ok.mp hhi
  obtain ⟨hpc, rfl⟩ := readByte_eq_ok.mp hlo
  refine ⟨hm, _, fetch_eq_ok.mpr ⟨by omega, rfl⟩, ?_⟩
  simp only [decode] at hd
  split at hd
  next j hj => cases hd; exact hj
  next => cases hd

/-- What the engine fetches does not depend on the actions still to come. -/
theorem Fetches.with_schedule (h : Fetches s i) (as : List Action) : Fetches { s with schedule := as } i := h

theorem keepsData_advancePc (s : State) : KeepsData { pc := true } s (advancePc s) := by
  constructor <;> simp [State.reg]

end FetchDecodeRun

/-! ## The obligations of 30_encoding.md -/

/-- Settles O1: the word is in the instruction's own row, and its operands are the word's fields. -/
theorem decodeOfEncodeIsTheInstruction : Obligations.DecodeOfEncodeIsTheInstruction :=
  fun _ h => ⟨decodeWord_encode h, decode_encodeBytes h⟩

/-- Settles O2: each branch of `decodeWord` knows the fields that its instruction's encoding fixes. -/
theorem encodeOfDecodeIsTheWord : Obligations.EncodeOfDecodeIsTheWord :=
  fun _ _ h => decodeWord_eq_some_iff.mp h

/-- Settles O3: the list group by group, and the step on a word that does not decode. -/
theorem invalidWordsAreExactlyTheListedOnes : Obligations.InvalidWordsAreExactlyTheListedOnes :=
  ⟨fun _ => by rw [decodeWord_eq_none_iff, decodeGroup0_eq_none, decodeGroup8_eq_none, decodeGroupE_eq_none,
    decodeGroupF_eq_none], fun _ _ => engineStep_of_invalid⟩

/-- Settles O4: a word decodes to an instruction exactly when it is in the instruction's row, so two rows of one word are the
row of one instruction. -/
theorem opcodeMapIsCompleteAndUnambiguous : Obligations.OpcodeMapIsCompleteAndUnambiguous := by
  have hdec : ∀ r ∈ opcodeMap, ∀ w, r.selects w = true → ∃ i, decodeWord w = some i ∧ opcodeRow i = r := by
    intro r hr w hw
    obtain ⟨k, -, rfl⟩ := List.mem_map.mp hr
    exact ⟨k.withFields w, decodeWord_of_selects hw, opcodeRow_withFields w k⟩
  refine ⟨rfl, fun r hr r' hr' w hw hw' => ?_, hdec, fun w i h => ⟨opcodeRow_mem_opcodeMap i, selects_of_decodeWord h⟩⟩
  obtain ⟨i, hi, rfl⟩ := hdec r hr w hw
  obtain ⟨j, hj, rfl⟩ := hdec r' hr' w hw'
  rw [Option.some.inj (hi.symm.trans hj)]

/-- Settles O7: the checks of a step in their order, and the fault left is the instruction's own. -/
theorem fetchThenDecodeFaultsComeFirst : Obligations.FetchThenDecodeFaultsComeFirst := by
  intro s hm
  refine ⟨engineStep_of_fetch_out hm, fun hpc => ⟨_, readWord_in hpc, engineStep_of_invalid hm (readWord_in hpc), ?_⟩⟩
  intro i f hd hfault
  rw [engineStep_of_fetches ⟨hm, _, readWord_in hpc, hd⟩] at hfault
  exact ⟨hfault, mayFault_of_exec_fault hfault⟩

/-- Settles O8, by induction on the number of steps. -/
theorem waitingStepsChangeNothing : Obligations.WaitingStepsChangeNothing := by
  intro n s hm
  have hact : act .step s = (s, .ok) := by simp [act, engineStep_of_waiting hm]
  induction n with
  | zero => rfl
  | succ n ih => simp [List.replicate_succ, runActions, hact, ih]

/-- Settles O5: each word is decoded by computation. -/
theorem writtenWordsDecodeAsTheSpecSays : Obligations.WrittenWordsDecodeAsTheSpecSays := by
  unfold Obligations.WrittenWordsDecodeAsTheSpecSays
  decide

/-- Settles O6: the bytes at `PC` are what the engine fetches, whether the schedule is empty or names the engine. -/
theorem stepRunsTheDecodedInstruction : Obligations.StepRunsTheDecodedInstruction := by
  refine ⟨fun s hi lo i hm hhi hlo hd => ?_, fun s => ⟨fun hpc => ?_, (keepsData_advancePc s).keeps⟩⟩
  · have hf := fetches_of_bytes hm hhi hlo hd
    refine ⟨engineStep_of_fetches hf, fun hs => ?_, fun as hs => ?_⟩
    · rw [step_of_quiet hs, engineStep_of_fetches hf]
    · rw [step_of_scheduled hs, outcomeOf_act_step, engineStep_of_fetches (hf.with_schedule as)]
  · rw [advancePc_pc, BitVec.toNat_add, Nat.mod_eq_of_lt]
    · rfl
    · simp; omega

end Sys2Proof.Machine

/-! ## Control flow: skips, jumps, calls and returns (40_control_flow.md) -/

namespace Sys2Proof.Machine

section ControlFlow

variable {i : Instr} {nnn : Addr12} {s t : State}

theorem addrLiteral_toNat (nnn : Addr12) : (addrLiteral nnn).toNat = nnn.toNat := by
  rw [addrLiteral, BitVec.toNat_setWidth]; omega

/-- An instruction that skips on `c` moves `PC` 2 further on exactly when what `c` decides holds, and changes nothing
else (R70). -/
theorem exec_skips_iff {c : Bool} {p : Prop} [Decidable p] (h : exec i s = .next (skipIf c s)) (hc : c = true ↔ p) :
    ∃ t, exec i s = .next t ∧ Keeps { pc := true } s t ∧
      t.pc.toNat = (if p then (s.pc.toNat + 2) % 0x10000 else s.pc.toNat) := by
  refine ⟨_, h, (keepsData_skipIf s c).keeps, ?_⟩
  rw [skipIf_pc, apply_ite BitVec.toNat, BitVec.toNat_add]
  exact if_congr hc rfl rfl

/-! ### The stack (20_memory.md R40, R41) -/

/-- `SP - 2` does not wrap where a push is allowed (R40). -/
theorem push_sp_toNat (h : Config.stackLimit ≤ s.sp.toNat) : (s.sp - 2#16).toNat = s.sp.toNat - 2 := by
  simp only [Config.stackLimit] at h
  bv_omega

/-- The slot a call wrote holds the return address, and no other byte changed (R73). -/
theorem execCall_reads_back (hw : s.mem.wf = true) (h : exec (.call nnn) s = .next t) :
    readWord t s.sp.toNat = .ok s.pc ∧ readByte t s.sp.toNat = .ok (hiByte s.pc) ∧
      readByte t (s.sp.toNat + 1) = .ok (loByte s.pc) ∧ MemSameOutside s.sp.toNat 2 s t := by
  obtain ⟨_, hsp, rfl⟩ := execCall_next h
  obtain ⟨u, hu, hword, hhi, hlo, hout, _⟩ := writeWord_reads_back s.pc hw hsp
  -- `u` has the memory that the call leaves, and reads depend on memory alone
  cases (writeWord_in s.pc hsp).symm.trans hu
  exact ⟨hword, hhi, hlo, hout⟩

/-- A return on a stack that is not empty takes `PC` from the slot at `SP + 2` (R71). -/
theorem execRet_pops (h : s.sp.toNat < Config.stackBaseAddr) :
    ∃ t, exec .ret s = .next t ∧ readWord s (s.sp.toNat + 2) = .ok t.pc ∧ t.sp = s.sp + 2#16 := by
  rcases execRet_cases s with ⟨hge, _⟩ | ⟨_, e⟩
  · exact absurd h (Nat.not_lt.mpr hge)
  · simp only [Config.stackBaseAddr] at h
    exact ⟨_, e, readWord_in (by omega), rfl⟩

end ControlFlow

/-! ## The obligations of 40_control_flow.md -/

/-- Settles O24: the pop where the stack is not empty, and else its fault. -/
theorem retPopsThePc : Obligations.RetPopsThePc := by
  refine ⟨rowDecodesTo_withFields .ret, fun s => ⟨fun hlt => ?_, fun hge => ?_⟩⟩
  · obtain ⟨t, ht, hpc, hsp⟩ := execRet_pops hlt
    exact ⟨t, ht, hpc, by rw [hsp, pop_sp_toNat hlt], (exec_keepsData ht).keeps⟩
  · rcases execRet_cases s with ⟨_, e⟩ | ⟨hlt, _⟩
    · exact e
    · exact absurd hge (Nat.not_le.mpr hlt)

/-- Settles O26: the three ends of a call, each on its own range of `SP`. -/
theorem callPushesTheReturnAddress : Obligations.CallPushesTheReturnAddress := by
  refine ⟨rowDecodesTo_withFields (.call 0), fun nnn s => ?_⟩
  rw [← hiByte_eq_ofNat, ← loByte_eq_ofNat]
  rcases execCall_cases nnn s with ⟨hover, e⟩ | ⟨hout, e⟩ | ⟨hlo, hhi, e⟩
  · exact ⟨fun _ hge => absurd hge (Nat.not_le.mpr hover), fun _ => e,
      fun hout => absurd (hout.trans hover) (by decide)⟩
  · exact ⟨fun _ _ hle => absurd hle (Nat.not_le.mpr hout),
      fun hover => absurd (hout.trans hover) (by decide), fun _ => e⟩
  · refine ⟨fun hw _ _ => ?_, fun hover => absurd hlo (Nat.not_le.mpr hover),
      fun hout => absurd hhi (Nat.not_le.mpr hout)⟩
    obtain ⟨hword, hhiByte, hloByte, hmem⟩ := execCall_reads_back hw e
    exact ⟨_, e, hword, hhiByte, hloByte, push_sp_toNat hlo, addrLiteral_toNat nnn, hmem, (exec_keepsData e).keeps⟩

/-- Settles O27: both are a skip on a comparison with the literal. -/
theorem skipsOnALiteral : Obligations.SkipsOnALiteral :=
  ⟨rowDecodesTo_withFields (.seb 0 0), rowDecodesTo_withFields (.sneb 0 0), fun _ _ _ =>
    ⟨exec_skips_iff rfl beq_iff_eq, exec_skips_iff rfl bne_iff_ne⟩⟩

/-- Settles O28: both are a skip on a comparison of the two registers. -/
theorem skipsOnTwoRegisters : Obligations.SkipsOnTwoRegisters :=
  ⟨rowDecodesTo_withFields (.se 0 0), rowDecodesTo_withFields (.sne 0 0), fun _ _ _ =>
    ⟨exec_skips_iff rfl beq_iff_eq, exec_skips_iff rfl bne_iff_ne⟩⟩

/-- Settles O29: the slot the return pops is the one the call wrote, for `SP - 2 + 2` is `SP`. -/
theorem retAfterCallRestoresPcAndSp : Obligations.RetAfterCallRestoresPcAndSp := by
  intro nnn s t p hw ⟨_, _, hbase⟩ h
  obtain ⟨hword, _⟩ := execCall_reads_back hw h
  obtain ⟨hlimit, _, ht⟩ := execCall_next h
  have hsp : t.sp = s.sp - 2#16 := by rw [ht]
  have hslot : t.sp.toNat + 2 = s.sp.toNat := by
    rw [hsp, push_sp_toNat hlimit, Nat.sub_add_cancel (Nat.le_trans (by decide) hlimit)]
  obtain ⟨u, hu, hpop, hup⟩ := execRet_pops (s := { t with pc := p }) (show t.sp.toNat < _ by omega)
  -- the return's own `PC` is in no read of memory
  have hpc : readWord t s.sp.toNat = .ok u.pc := hslot ▸ hpop
  exact ⟨u, hu, Except.ok.inj (hpc.symm.trans hword), by rw [hup, hsp, BitVec.sub_add_cancel]⟩

/-- Settles O25: the literal, widened to 16 bits, is the same number, and the frame of a jump is `PC`. -/
theorem jpSetsThePc : Obligations.JpSetsThePc :=
  ⟨rowDecodesTo_withFields (.jp 0), fun nnn _ =>
    ⟨_, rfl, addrLiteral_toNat nnn, (exec_keepsData (i := .jp nnn) rfl).keeps⟩⟩

end Sys2Proof.Machine

/-! ## Loads, arithmetic, logic, shifts and random (41_alu.md) -/

namespace Sys2Proof.Machine

section Alu

variable {i : Instr} {x : Reg} {b : Byte} {c : Bool} {s : State}

/-! ### The registers read back (10_state.md R10, R11) -/

theorem reg_setReg_self (s : State) (x : Reg) (b : Byte) : (s.setReg x b).reg x = b :=
  (reg_setReg ..).trans (if_pos rfl)

theorem flagByte_toNat (c : Bool) : (flagByte c).toNat = c.toNat := by cases c <;> rfl

/-- The flag is written last, so it stands in `VF` whatever the destination is (R11). -/
theorem reg_vf_setResultAndFlag (s : State) (x : Reg) (b : Byte) (c : Bool) :
    (setResultAndFlag s x b c).reg vf = flagByte c :=
  reg_setReg_self ..

/-- The result stands in a destination that the flag does not overwrite. -/
theorem reg_setResultAndFlag_of_ne (h : x ≠ vf) : (setResultAndFlag s x b c).reg x = b := by
  rw [reg_setResultAndFlag, if_neg h, if_pos rfl]

/-- An instruction that stores a result and then a flag leaves both, and changes nothing else. -/
theorem exec_storesResultAndFlag {n : Nat} {p : Prop} [Decidable p]
    (h : exec i s = .next (setResultAndFlag s x b c)) (hb : b.toNat = n) (hc : c = true ↔ p) :
    ∃ t, exec i s = .next t ∧ (x ≠ 15 → (t.reg x).toNat = n) ∧ t.reg 15 = (if p then 1#8 else 0#8) ∧
      Keeps { regs := [x, 15] } s t :=
  ⟨_, h, fun hx => (congrArg BitVec.toNat (reg_setResultAndFlag_of_ne hx)).trans hb,
    (reg_vf_setResultAndFlag ..).trans (if_congr hc rfl rfl), (keepsData_setResultAndFlag s x b c).keeps⟩

/-- An instruction of two register fields that stores a result and then a bit, whatever the second field is, leaves both,
and changes nothing else. -/
theorem exec_storesResultAndBit {f : Reg → Instr} {n m : Nat}
    (h : ∀ y, exec (f y) s = .next (setResultAndFlag s x b c)) (hb : b.toNat = n) (hc : c.toNat = m) (y : Reg) :
    ∃ t, exec (f y) s = .next t ∧ (x ≠ 15 → (t.reg x).toNat = n) ∧ (t.reg 15).toNat = m ∧
      Keeps { regs := [x, 15] } s t ∧ ∀ y', exec (f y') s = .next t :=
  ⟨_, h y, fun hx => (congrArg BitVec.toNat (reg_setResultAndFlag_of_ne hx)).trans hb,
    (congrArg BitVec.toNat (reg_vf_setResultAndFlag ..)).trans ((flagByte_toNat c).trans hc),
    (keepsData_setResultAndFlag s x b c).keeps, h⟩

/-! ### Results and flags as numbers (R86 to R91) -/

theorem byte_sub_toNat (a b : Byte) : (a - b).toNat = (a.toNat + 256 - b.toNat) % 256 := by
  have hb := b.isLt
  rw [BitVec.toNat_sub]; omega

theorem carryOut_iff {a b : Byte} : carryOut a b = true ↔ a.toNat + b.toNat > 255 := by
  rw [carryOut_eq, decide_eq_true_iff]

theorem strictlyGreater_iff {a b : Byte} : strictlyGreater a b = true ↔ a.toNat > b.toNat := decide_eq_true_iff

/-- The bit that a right shift drops is the remainder of halving (R88). -/
theorem bit0_toNat (a : Byte) : (bit0 a).toNat = a.toNat % 2 := by
  rw [bit0, BitVec.getLsbD, Nat.toNat_testBit, Nat.pow_zero, Nat.div_one]

/-- The bit that a left shift drops is the carry of doubling (R90). -/
theorem bit7_toNat (a : Byte) : (bit7 a).toNat = a.toNat / 128 := by
  have ha := a.isLt
  rw [bit7, BitVec.getLsbD, Nat.toNat_testBit]; omega

/-! ### The random source (R92) -/

/-- Only CXNN may take an answer of the random source. -/
theorem mayWrite_draws (h : (mayWrite i).draws = true) : ∃ x nn, i = .rnd x nn := by
  cases i <;> simp [mayWrite] at h ⊢

end Alu

/-! ## The obligations of 41_alu.md -/

/-- Settles O14: bytes add modulo 256, and the frame of a register write is that register. -/
theorem addbAddsModulo256WithoutFlag : Obligations.AddbAddsModulo256WithoutFlag :=
  ⟨rowDecodesTo_withFields (.addb 0 0), fun x nn s =>
    ⟨_, rfl, by rw [reg_setReg_self, BitVec.toNat_add], (keepsData_setReg s x _).keeps⟩⟩

/-- Settles O16: each operation on bytes is its Boolean operation at every bit. -/
theorem logicInstructionsAreBitwiseWithoutFlag : Obligations.LogicInstructionsAreBitwiseWithoutFlag := by
  refine ⟨rowDecodesTo_withFields (.or 0 0), rowDecodesTo_withFields (.and 0 0), rowDecodesTo_withFields (.xor 0 0),
    fun x y s => ⟨?_, ?_, ?_⟩⟩
  · exact ⟨_, rfl, (keepsData_setReg s x _).keeps, fun k _ => by rw [reg_setReg_self, BitVec.getLsbD_or]⟩
  · exact ⟨_, rfl, (keepsData_setReg s x _).keeps, fun k _ => by rw [reg_setReg_self, BitVec.getLsbD_and]⟩
  · exact ⟨_, rfl, (keepsData_setReg s x _).keeps, fun k _ => by rw [reg_setReg_self, BitVec.getLsbD_xor]⟩

/-- Settles O17: bit 8 of the 9-bit sum says whether the sum is above 255. -/
theorem addStoresTheSumAndTheCarry : Obligations.AddStoresTheSumAndTheCarry :=
  ⟨rowDecodesTo_withFields (.add 0 0), fun _ _ _ =>
    exec_storesResultAndFlag rfl (sumLow_toNat ..) carryOut_iff⟩

/-- Settles O18: both the difference and the comparison are of the old values. -/
theorem subStoresTheDifferenceAndTheStrictFlag : Obligations.SubStoresTheDifferenceAndTheStrictFlag :=
  ⟨rowDecodesTo_withFields (.sub 0 0), fun _ _ _ =>
    exec_storesResultAndFlag rfl (byte_sub_toNat ..) strictlyGreater_iff⟩

/-- Settles O19: a right shift halves and drops the remainder into `VF`; `Y` is not in the meaning. -/
theorem shrShiftsBitZeroIntoVF : Obligations.ShrShiftsBitZeroIntoVF :=
  ⟨rowDecodesTo_withFields (.shr 0 0), fun x y s => exec_storesResultAndBit (f := .shr x) (fun _ => rfl)
    (by rw [BitVec.toNat_ushiftRight, Nat.shiftRight_one]) (bit0_toNat _) y⟩

/-- Settles O20: as O18, with the operands changed over. -/
theorem subnStoresTheReverseDifferenceAndTheStrictFlag :
    Obligations.SubnStoresTheReverseDifferenceAndTheStrictFlag :=
  ⟨rowDecodesTo_withFields (.subn 0 0), fun _ _ _ =>
    exec_storesResultAndFlag rfl (byte_sub_toNat ..) strictlyGreater_iff⟩

/-- Settles O21: a left shift doubles and drops the carry into `VF`; `Y` is not in the meaning. -/
theorem shlShiftsBitSevenIntoVF : Obligations.ShlShiftsBitSevenIntoVF :=
  ⟨rowDecodesTo_withFields (.shl 0 0), fun x y s => exec_storesResultAndBit (f := .shl x) (fun _ => rfl)
    (by rw [BitVec.toNat_shiftLeft, Nat.shiftLeft_eq, Nat.mul_comm]) (bit7_toNat _) y⟩

/-- Settles O22: the answer taken is masked bit by bit, and the counter of answers is in no other instruction's frame. -/
theorem rndMasksOneRandomByte : Obligations.RndMasksOneRandomByte := by
  refine ⟨rowDecodesTo_withFields (.rnd 0 0), fun x nn s => ⟨_, rfl, fun k _ => ?_, rfl,
    (exec_keepsData (i := .rnd x nn) rfl).keeps⟩, fun i s t h hne => (exec_keepsData h).draws ?_⟩
  · rw [reg_setReg_self, BitVec.getLsbD_and]; rfl
  · refine Bool.eq_false_iff.mpr fun hd => ?_
    obtain ⟨x, nn, hi⟩ := mayWrite_draws hd
    exact hne x nn hi

/-- Settles O13: the written register reads back. -/
theorem ldbLoadsTheLiteral : Obligations.LdbLoadsTheLiteral :=
  ⟨rowDecodesTo_withFields (.ldb 0 0), fun x nn s =>
    ⟨_, rfl, reg_setReg_self s x nn, (keepsData_setReg s x nn).keeps⟩⟩

/-- Settles O15: the written register reads back, and the value written is the old one, also where `x` is `y`. -/
theorem movCopiesARegister : Obligations.MovCopiesARegister :=
  ⟨rowDecodesTo_withFields (.mov 0 0), fun x y s =>
    ⟨_, rfl, reg_setReg_self s x (s.reg y), (keepsData_setReg s x _).keeps⟩⟩

end Sys2Proof.Machine

/-! ## The index register and memory (42_index_memory.md) -/

namespace Sys2Proof.Machine

section IndexMemory

variable {i : Instr} {s : State} {a k : Nat} {b : Byte} {bs : List Byte}

/-! ### Loads of `I` (R100 to R103) -/

theorem regWord_toNat (s : State) (x : Reg) : (regWord s x).toNat = (s.reg x).toNat := by
  have hx := (s.reg x).isLt
  rw [regWord, BitVec.toNat_setWidth]; omega

/-- `NNN + V0` is below 0x1100, so the 16-bit sum does not wrap (R101). -/
theorem addrLiteral_add_regWord_toNat (nnn : Addr12) (s : State) (x : Reg) :
    (addrLiteral nnn + regWord s x).toNat = nnn.toNat + (s.reg x).toNat := by
  have hn := nnn.isLt
  have hx := (s.reg x).isLt
  rw [BitVec.toNat_add, addrLiteral_toNat, regWord_toNat]; omega

theorem digitAddr_toNat (d : Fin 16) : (digitAddr d).toNat = 5 * d.val := by
  have hd := d.isLt
  rw [digitAddr, BitVec.toNat_ofNat]; omega

/-- An instruction that loads `I` leaves the value there, and changes nothing else. -/
theorem exec_loadsIndex {w : Word} {n : Nat} (h : exec i s = .next (setI s w)) (hw : w.toNat = n) :
    ∃ t, exec i s = .next t ∧ t.i.toNat = n ∧ Keeps { i := true } s t :=
  ⟨_, h, hw, (keepsData_setI s w).keeps⟩

/-! ### Rows of bytes stored and loaded (R104 to R107) -/

/-- The k-th byte of a row of writes reads back at the k-th address. -/
theorem readByte_setBytes (hw : s.mem.wf = true) (ha : a + bs.length ≤ Config.memBytes) (hb : bs[k]? = some b) :
    readByte { s with mem := s.mem.setBytes a bs } (a + k) = .ok b := by
  obtain ⟨hk, -⟩ := List.getElem?_eq_some_iff.mp hb
  refine readByte_eq_ok.mpr ⟨by simp only [Config.memBytes] at ha; omega, ?_⟩
  rw [Memory.get_setBytes a bs ha hw, if_pos (Nat.le_add_right a k), Nat.add_sub_cancel_left,
    List.getD_eq_getElem?_getD, hb, Option.getD_some]

/-- A row of writes leaves every byte outside it. -/
theorem memSameOutside_setBytes (hw : s.mem.wf = true) (ha : a + bs.length ≤ Config.memBytes) :
    MemSameOutside a bs.length s { s with mem := s.mem.setBytes a bs } := by
  refine memSameOutside_of_get fun c hc => (Memory.get_setBytes a bs ha hw c).trans ?_
  rcases hc with hbelow | habove
  · exact if_neg (Nat.not_le.mpr hbelow)
  · rw [List.getD_eq_default _ _ (by omega), ite_self]

/-- A row of values loaded from register 0 on leaves the k-th value in `V[k]` (R106). -/
theorem reg_setRegsFrom_zero_of_le {x r : Reg} (f : Nat → Byte) (hr : r ≤ x) :
    (s.setRegsFrom 0 ((List.range (x.val + 1)).map f)).reg r = f r.val := by
  have hlt : r.val < x.val + 1 := Nat.lt_succ_of_le hr
  rw [reg_setRegsFrom, if_pos (Nat.zero_le _), Nat.sub_zero, List.getD_eq_getElem _ _ (by simpa using hlt),
    List.getElem_map, List.getElem_range]

end IndexMemory

/-! ## The obligations of 42_index_memory.md -/

/-- Settles O32: the sum fits in 16 bits, and `PC` is not in the frame of the load. -/
theorem mvi0AddsV0AndDoesNotJump : Obligations.Mvi0AddsV0AndDoesNotJump :=
  ⟨rowDecodesTo_withFields (.mvi0 0), fun nnn s =>
    ⟨_, rfl, addrLiteral_add_regWord_toNat nnn s 0, rfl, (keepsData_setI s _).keeps⟩⟩

/-- Settles O33: words add modulo 2^16, and no register is in the frame of the load. -/
theorem adiAddsModulo65536WithoutFlag : Obligations.AdiAddsModulo65536WithoutFlag :=
  ⟨rowDecodesTo_withFields (.adi 0), fun x s =>
    exec_loadsIndex rfl (by rw [BitVec.toNat_add, regWord_toNat])⟩

/-- Settles O34: the digit's address where the register holds a digit, and else its fault. -/
theorem fntAddressesTheDigitsSprite : Obligations.FntAddressesTheDigitsSprite := by
  refine ⟨rowDecodesTo_withFields (.fnt 0), fun x s => ?_⟩
  rcases execFnt_cases x s with ⟨hbig, e⟩ | ⟨hdigit, e⟩
  · exact ⟨fun hle => absurd hbig (Nat.not_le.mpr (Nat.lt_succ_of_le hle)), fun _ => e⟩
  · exact ⟨fun _ => exec_loadsIndex e (digitAddr_toNat _), fun hgt => absurd hdigit (Nat.not_lt.mpr hgt)⟩

/-- Settles O35: the three digits are a row of writes that fits, or none of them is stored. -/
theorem bcdStoresThreeDigits : Obligations.BcdStoresThreeDigits := by
  refine ⟨rowDecodesTo_withFields (.bcd 0), fun x s => ?_⟩
  rcases execBcd_cases x s with ⟨hfit, e⟩ | ⟨hout, e⟩
  · refine ⟨fun hw _ => ?_, fun hgt => absurd hfit (Nat.not_le.mpr (Nat.succ_lt_succ hgt))⟩
    exact ⟨_, e, readByte_setBytes (k := 0) hw hfit rfl, readByte_setBytes (k := 1) hw hfit rfl,
      readByte_setBytes (k := 2) hw hfit rfl, memSameOutside_setBytes (bs := bcdDigits _) hw hfit,
      (keepsData_mem s _).keeps⟩
  · exact ⟨fun _ hle => absurd hout (Nat.not_lt.mpr (Nat.succ_le_succ hle)), fun _ => e⟩

/-- Settles O36: `V[0..x]` are a row of `x + 1` writes that fits, or none of them is stored. -/
theorem strStoresARangeOfRegisters : Obligations.StrStoresARangeOfRegisters := by
  refine ⟨rowDecodesTo_withFields (.str 0), fun x s => ?_⟩
  rcases execStr_cases x s with ⟨hfit, e⟩ | ⟨hout, e⟩
  · refine ⟨fun hw _ => ?_, fun hgt => absurd hfit (Nat.not_le.mpr hgt)⟩
    have hlen : s.i.toNat + (regsUpTo s x).length ≤ Config.memBytes := by
      rw [regsUpTo_length]; exact Nat.succ_le_succ hfit
    refine ⟨_, e, fun k hk => readByte_eq_ok.mpr ⟨?_, Memory.get_setBytes_regsUpTo hk hfit hw⟩, ?_,
      (keepsData_mem s _).keeps⟩
    · exact (Nat.add_le_add_left hk _).trans hfit
    · rw [← regsUpTo_length s x]
      exact memSameOutside_setBytes hw hlen
  · exact ⟨fun _ hle => absurd hout (Nat.not_lt.mpr hle), fun _ => e⟩

/-- Settles O37: `V[0..x]` are a row of `x + 1` bytes read inside memory, or none of them is loaded. -/
theorem ldrLoadsARangeOfRegisters : Obligations.LdrLoadsARangeOfRegisters := by
  refine ⟨rowDecodesTo_withFields (.ldr 0), fun x s => ?_⟩
  rcases execLdr_cases x s with ⟨hfit, e⟩ | ⟨hout, e⟩
  · refine ⟨fun _ => ⟨_, e, fun k hk => readByte_eq_ok.mpr ⟨?_, ?_⟩, (exec_keepsData e).keeps⟩,
      fun hgt => absurd hfit (Nat.not_le.mpr hgt)⟩
    · exact (Nat.add_le_add_left hk _).trans hfit
    · exact (reg_setRegsFrom_zero_of_le (fun k => s.mem.get (s.i.toNat + k)) hk).symm
  · exact ⟨fun hle => absurd hout (Nat.not_lt.mpr hle), fun _ => e⟩

/-- Settles O31: the literal, widened to 16 bits, is the same number. -/
theorem mviLoadsTheIndexRegister : Obligations.MviLoadsTheIndexRegister :=
  ⟨rowDecodesTo_withFields (.mvi 0), fun nnn _ => exec_loadsIndex rfl (addrLiteral_toNat nnn)⟩

end Sys2Proof.Machine

/-! ## The framebuffer (43_display.md) -/

namespace Sys2Proof.Machine

section Display

variable {x y : Reg} {n : Nat} {s t : State}

/-- The operand field of DXYN holds no more rows than a column has, so no row of a draw is met twice (R111). -/
theorem drw_rows_le (h : (Instr.drw x y n).wellFormed = true) : n ≤ 32 :=
  (of_decide_eq_true h).le.trans (by decide)

theorem eq_row_iff {b : Byte} {k : Nat} {r : Fin 32} : r = row b k ↔ r.val = (b.toNat + k) % 32 := Fin.ext_iff

/-- A draw answers a next state where it has no row, or neither of its faults is met (R111). -/
theorem execDrw_next_iff (hn : n ≤ 32) : (∃ t, exec (.drw x y n) s = .next t) ↔
    n = 0 ∨ (s.reg x).toNat < 64 ∧ s.i.toNat ≤ 0xFFF := by
  constructor
  · rintro ⟨t, h⟩
    refine (Nat.eq_zero_or_pos n).imp_right fun hpos => ?_
    have hx : (s.reg x).toNat < 64 := by
      by_contra hx
      cases (execDrw_column_fault y hpos (Nat.le_of_not_lt hx)).symm.trans h
    refine ⟨hx, ?_⟩
    by_contra hi
    cases (execDrw_address_fault y hpos hx (Nat.lt_of_not_le hi)).symm.trans h
  · rintro (rfl | ⟨hx, hi⟩)
    · exact ⟨_, execDrw_zero x y s⟩
    · obtain ⟨t, g, e, -⟩ := execDrw_ok (y := y) hn hx hi
      exact ⟨_, e⟩

/-- The cells a draw that answers a next state leaves: those of its column and rows are XORed with the byte at `I`, none
where it draws no row (R111). -/
theorem execDrw_next_cell (hn : n ≤ 32) (h : exec (.drw x y n) s = .next t) (c : Fin 64) (r : Fin 32) :
    t.cell c r = if c.val = (s.reg x).toNat ∧ ∃ k, k < n ∧ r = row (s.reg y) k
      then s.cell c r ^^^ s.mem.get s.i.toNat else s.cell c r := by
  rcases (execDrw_next_iff hn).mp ⟨t, h⟩ with rfl | ⟨hx, hi⟩
  · cases (execDrw_zero x y s).symm.trans h
    simp
  · obtain ⟨u, g, e, -, hcell, -⟩ := execDrw_ok (y := y) hn hx hi
    cases e.symm.trans h
    rw [cell_setReg, hcell]

end Display

/-! ## The obligations of 43_display.md -/

/-- Settles O42: a clear leaves the same framebuffer whatever was there, so a second one leaves the same state. -/
theorem clsClearsEveryCell : Obligations.ClsClearsEveryCell :=
  ⟨rowDecodesTo_withFields .cls, fun s =>
    ⟨_, rfl, cell_clearFrame s, (exec_keepsData (i := .cls) rfl).keeps, rfl⟩⟩

/-- Settles O43: the loop's rule for the cells and the collision, and the loop's two faults in their order. -/
theorem drwXorsOneColumnAndReportsCollision : Obligations.DrwXorsOneColumnAndReportsCollision := by
  refine ⟨rowDecodesTo_withFields (.drw 0 0 0), fun x y n s hwf => ⟨?_, fun hx hi => ?_,
    fun hn hx => execDrw_column_fault y hn hx, fun hn hx hi => execDrw_address_fault y hn (Nat.lt_succ_of_le hx) hi⟩⟩
  · rintro rfl
    exact ⟨_, execDrw_zero x y s, reg_setReg_self s vf 0#8, (keepsData_setReg s vf 0#8).keeps⟩
  · obtain ⟨t, g, e, -, hcell, hg⟩ := execDrw_ok (y := y) (drw_rows_le hwf) hx hi
    simp only [eq_row_iff] at hcell
    refine ⟨_, _, readByte_in hi, e, hcell, ?_, fun hkeep => ?_, (exec_keepsData e).keeps⟩
    · rintro ⟨r, ⟨k, hk, hr⟩, hlt⟩
      obtain rfl := eq_row_iff.mpr hr
      rw [hg.mpr ⟨k, hk, hlt⟩]
      exact reg_setReg_self t vf 1#8
    · have hfalse : g = false := Bool.eq_false_iff.mpr fun htrue => by
        obtain ⟨k, hk, hgt⟩ := hg.mp htrue
        exact absurd hgt (Nat.not_lt.mpr (hkeep _ ⟨k, hk, rfl⟩))
      rw [hfalse]
      exact reg_setReg_self t vf 0#8

/-- Settles O44: the second draw meets the same column, rows and byte, for the first one wrote cells and `VF` alone, and
XORing a byte twice gives the old cell. -/
theorem drawingTwiceRestoresTheFramebuffer : Obligations.DrawingTwiceRestoresTheFramebuffer := by
  intro x y n s t hwf hx hy h
  have hn := drw_rows_le hwf
  have hk := exec_keepsData h
  have hrx : t.reg x = s.reg x := hk.regs x (List.not_mem_cons_of_ne_of_not_mem hx List.not_mem_nil)
  have hry : t.reg y = s.reg y := hk.regs y (List.not_mem_cons_of_ne_of_not_mem hy List.not_mem_nil)
  have hi : t.i = s.i := hk.i rfl
  have hm : t.mem = s.mem := hk.mem rfl
  have hin := (execDrw_next_iff hn).mp ⟨t, h⟩
  rw [← hrx, ← hi] at hin
  obtain ⟨u, hu⟩ := (execDrw_next_iff (y := y) hn).mpr hin
  refine ⟨u, hu, fun c r => ?_⟩
  rw [execDrw_next_cell hn hu, execDrw_next_cell hn h, hrx, hry, hi, hm]
  split
  · rw [BitVec.xor_assoc, BitVec.xor_self, BitVec.xor_zero]
  · rfl

end Sys2Proof.Machine

/-! ## Keypad and timers (44_keypad_timers.md) -/

namespace Sys2Proof.Machine

section KeypadTimers

variable {x : Reg} {s : State} {w : Word}

/-! ### FX0A and the notification that ends its wait (R118, 10_state.md R22, 60_exceptions.md R145) -/

/-- The word of an FX0A names in its X field the register that waits (R22). -/
theorem opX_of_decodeWord_key (h : decodeWord w = some (.key x)) : opX w = x := by
  obtain ⟨-, rfl⟩ := decodeWord_eq_some_iff.mp h
  exact opX_encodeX ..

/-- A word that can be fetched lies below 0xFFF, so the increment of `PC` past it does not wrap. -/
theorem advancePc_pc_toNat (h : fetch s = .ok w) : (advancePc s).pc.toNat = s.pc.toNat + 2 := by
  obtain ⟨hpc, -⟩ := fetch_eq_ok.mp h
  rw [advancePc_pc]
  bv_omega

/-- What a step that runs FX0A leaves (30_encoding.md R55, R118). -/
def waitingAfter (s : State) : State := { advancePc s with mode := .waitingForKey }

theorem engineStep_of_fetches_key (h : Fetches s (.key x)) : engineStep s = .next (waitingAfter s) :=
  engineStep_of_fetches h

theorem keepsData_waitingAfter (s : State) : KeepsData { pc := true, mode := true } s (waitingAfter s) := by
  constructor <;> simp [waitingAfter, State.reg]

/-- The word of the FX0A that was fetched is the one the notification reads again (R22). -/
theorem pendingWord_waitingAfter (s : State) : pendingWord (waitingAfter s) = fetch s := by
  have hpc : (waitingAfter s).pc - 2#16 = s.pc := BitVec.add_sub_cancel ..
  rw [pendingWord, hpc]
  exact readWord_congr rfl _

/-- The state in which a notification has put a byte in the register that waits (R145). -/
def notified (s : State) (x : Reg) (b : Byte) : State := { s.setReg x b with mode := .running }

theorem act_notifyKeyPressed_of_pending (k : Key) (hm : s.mode = .waitingForKey) (hw : pendingWord s = .ok w) :
    act (.notifyKeyPressed k) s = (notified s (opX w) (BitVec.ofNat 8 k.val), .ok) := by
  simp [act, notifyKeyPressed, hm, hw, notified]

theorem reg_notified_self (s : State) (x : Reg) (b : Byte) : (notified s x b).reg x = b := reg_setReg_self s x b

theorem keepsData_notified (s : State) (x : Reg) (b : Byte) :
    KeepsData { regs := [x], mode := true } s (notified s x b) := by
  constructor
  case regs => exact (keepsData_setReg s x b).regs
  all_goals simp [notified]

theorem keyByte_toNat (k : Key) : (BitVec.ofNat 8 k.val).toNat = k.val :=
  Nat.mod_eq_of_lt (k.isLt.trans (by decide))

end KeypadTimers

/-! ## The obligations of 44_keypad_timers.md -/

/-- Settles O45: both test the same key number, and the second skip is the first one on the negated answer. -/
theorem skipsOnAKey : Obligations.SkipsOnAKey := by
  refine ⟨rowDecodesTo_withFields (.skp 0), rowDecodesTo_withFields (.sknp 0), fun x s => ?_⟩
  rcases execSkp_cases x s with ⟨hbig, e⟩ | ⟨hkey, e⟩
  · rcases execSknp_cases x s with ⟨_, e'⟩ | ⟨hkey, _⟩
    · exact ⟨fun k hk => absurd (hk ▸ k.isLt) (Nat.not_lt.mpr hbig), fun _ => ⟨e, e'⟩⟩
    · exact absurd hkey (Nat.not_lt.mpr hbig)
  · rcases execSknp_cases x s with ⟨hbig, _⟩ | ⟨_, e'⟩
    · exact absurd hkey (Nat.not_lt.mpr hbig)
    · refine ⟨fun k hk => ?_, fun hbig => absurd hkey (Nat.not_lt.mpr hbig)⟩
      obtain rfl : k = ⟨_, hkey⟩ := Fin.ext hk.symm
      refine ⟨exec_skips_iff e Iff.rfl, ?_⟩
      simpa only [ite_not] using exec_skips_iff (p := ¬ keyPressed s _ = true) e' (by simp)

/-- Settles O48: the notification reads again, at `PC - 2`, the very word that the step fetched. -/
theorem keyThenNotificationDepositsTheKey : Obligations.KeyThenNotificationDepositsTheKey := by
  intro x s h
  have ⟨_, w, hw, hd⟩ := h
  obtain rfl := opX_of_decodeWord_key hd
  have hp : pendingWord (waitingAfter s) = .ok w := (pendingWord_waitingAfter s).trans hw
  exact ⟨_, engineStep_of_fetches_key h, rfl, advancePc_pc_toNat hw, (keepsData_waitingAfter s).keeps, fun k =>
    ⟨_, act_notifyKeyPressed_of_pending k rfl hp, (congrArg BitVec.toNat (reg_notified_self ..)).trans (keyByte_toNat k),
      rfl, (keepsData_notified ..).keeps⟩⟩

/-- Settles O46: each value read back is the one written, and each frame is that of the instruction. -/
theorem timerInstructionsReadAndWriteTheTimers : Obligations.TimerInstructionsReadAndWriteTheTimers :=
  ⟨rowDecodesTo_withFields (.gdt 0), rowDecodesTo_withFields (.sdt 0), rowDecodesTo_withFields (.sst 0), fun x s =>
    ⟨⟨_, rfl, reg_setReg_self s x s.dt, (exec_keepsData (i := .gdt x) rfl).keeps⟩,
      ⟨_, rfl, delaySet_dt .., (exec_keepsData (i := .sdt x) rfl).keeps⟩,
      ⟨_, rfl, soundSet_st .., (exec_keepsData (i := .sst x) rfl).keeps⟩⟩⟩

/-- Settles O47: the frame of FX0A is `mode`, so `V[X]` and `PC` keep their values. -/
theorem keyEntersTheWait : Obligations.KeyEntersTheWait :=
  ⟨rowDecodesTo_withFields (.key 0), fun x _ => ⟨_, rfl, rfl, (exec_keepsData (i := .key x) rfl).keeps⟩⟩

end Sys2Proof.Machine

/-! ## Faults, refusals, notifications and ticks (60_exceptions.md) -/

namespace Sys2Proof.Machine

section Exceptions

variable {i : Instr} {f : Fault} {s : State} {a : Action} {r : Reply}

/-! ### The fault table (R130) -/

/-- The draw loop's faults do not depend on the rows, so where neither is met it ends, however many rows it has
(43_display.md R111). -/
theorem drawRows_ends {x : Byte} (y : Byte) (n k : Nat) (g : Bool) (hx : x.toNat < 64) (hi : s.i.toNat ≤ 0xFFF) :
    ∃ p, drawRows x y n k s g = .ok p := by
  induction n generalizing k s g with
  | zero => exact ⟨_, rfl⟩
  | succ n ih =>
    rcases drawRow_cases x y k s g with ⟨hbig, _⟩ | ⟨_, hout, _⟩ | ⟨_, _, e⟩
    · exact absurd hx (Nat.not_lt.mpr hbig)
    · exact absurd hi (Nat.not_le.mpr hout)
    · rw [drawRows, e]
      exact ih (k + 1) _ hi

/-- Everything DXYN can answer, with any number of rows (43_display.md R111). -/
theorem execDrw_cases (x y : Reg) (n : Nat) (s : State) :
    (∃ t, exec (.drw x y n) s = .next t) ∨
    (0 < n ∧ 64 ≤ (s.reg x).toNat ∧ exec (.drw x y n) s = .fault (.framebufferOutOfRange (s.reg x))) ∨
    (0 < n ∧ (s.reg x).toNat < 64 ∧ 0xFFF < s.i.toNat ∧
      exec (.drw x y n) s = .fault (.addressOutOfRange s.i.toNat)) := by
  rcases Nat.eq_zero_or_pos n with rfl | hn
  · exact .inl ⟨_, execDrw_zero x y s⟩
  rcases Nat.lt_or_ge (s.reg x).toNat 64 with hx | hx
  · rcases Nat.lt_or_ge 0xFFF s.i.toNat with hi | hi
    · exact .inr (.inr ⟨hn, hx, hi, execDrw_address_fault y hn hx hi⟩)
    · obtain ⟨p, hp⟩ := drawRows_ends (s.reg y) n 0 false hx hi
      refine .inl ⟨p.1.setReg vf (flagByte p.2), ?_⟩
      simp only [exec, execDrw, hp]
  · exact .inr (.inl ⟨hn, hx, execDrw_column_fault y hn hx⟩)

/-- The rows of the fault table that an instruction can meet once it is decoded, each with its condition and the value it
records (R130). The second row of 2NNN lies outside the invariant. -/
inductive Raises (s : State) : Instr → Fault → Prop where
  | retUnderflow (h : Config.stackBaseAddr ≤ s.sp.toNat) : Raises s .ret (.stackUnderflow s.sp)
  | callOverflow (nnn : Addr12) (h : s.sp.toNat < Config.stackLimit) : Raises s (.call nnn) (.stackOverflow s.sp)
  | callAddress (nnn : Addr12) (h : 0xFFE < s.sp.toNat) : Raises s (.call nnn) (.addressOutOfRange s.sp.toNat)
  | fntDigit (x : Reg) (h : 16 ≤ (s.reg x).toNat) : Raises s (.fnt x) (.invalidSpriteDigit (s.reg x))
  | bcdAddress (x : Reg) (h : 0x1000 < s.i.toNat + 3) :
    Raises s (.bcd x) (.addressOutOfRange (max s.i.toNat 0x1000))
  | strAddress (x : Reg) (h : 0xFFF < s.i.toNat + x.val) :
    Raises s (.str x) (.addressOutOfRange (max s.i.toNat 0x1000))
  | ldrAddress (x : Reg) (h : 0xFFF < s.i.toNat + x.val) :
    Raises s (.ldr x) (.addressOutOfRange (max s.i.toNat 0x1000))
  | skpKey (x : Reg) (h : 16 ≤ (s.reg x).toNat) : Raises s (.skp x) (.keyIndexOutOfRange (s.reg x))
  | sknpKey (x : Reg) (h : 16 ≤ (s.reg x).toNat) : Raises s (.sknp x) (.keyIndexOutOfRange (s.reg x))
  | drwColumn (x y : Reg) {n : Nat} (hn : 0 < n) (h : 64 ≤ (s.reg x).toNat) :
    Raises s (.drw x y n) (.framebufferOutOfRange (s.reg x))
  | drwAddress (x y : Reg) {n : Nat} (hn : 0 < n) (hx : (s.reg x).toNat < 64) (h : 0xFFF < s.i.toNat) :
    Raises s (.drw x y n) (.addressOutOfRange s.i.toNat)

/-- Everything an instruction can answer: a next state, or a fault of its own rows of the table. -/
theorem exec_cases (i : Instr) (s : State) :
    (∃ t, exec i s = .next t) ∨ ∃ f, Raises s i f ∧ exec i s = .fault f := by
  cases i with
  | ret =>
    rcases execRet_cases s with ⟨h, e⟩ | ⟨_, e⟩
    · exact .inr ⟨_, .retUnderflow h, e⟩
    · exact .inl ⟨_, e⟩
  | call nnn =>
    rcases execCall_cases nnn s with ⟨h, e⟩ | ⟨h, e⟩ | ⟨_, _, e⟩
    · exact .inr ⟨_, .callOverflow nnn h, e⟩
    · exact .inr ⟨_, .callAddress nnn h, e⟩
    · exact .inl ⟨_, e⟩
  | fnt x =>
    rcases execFnt_cases x s with ⟨h, e⟩ | ⟨_, e⟩
    · exact .inr ⟨_, .fntDigit x h, e⟩
    · exact .inl ⟨_, e⟩
  | bcd x =>
    rcases execBcd_cases x s with ⟨_, e⟩ | ⟨h, e⟩
    · exact .inl ⟨_, e⟩
    · exact .inr ⟨_, .bcdAddress x h, e⟩
  | str x =>
    rcases execStr_cases x s with ⟨_, e⟩ | ⟨h, e⟩
    · exact .inl ⟨_, e⟩
    · exact .inr ⟨_, .strAddress x h, e⟩
  | ldr x =>
    rcases execLdr_cases x s with ⟨_, e⟩ | ⟨h, e⟩
    · exact .inl ⟨_, e⟩
    · exact .inr ⟨_, .ldrAddress x h, e⟩
  | skp x =>
    rcases execSkp_cases x s with ⟨h, e⟩ | ⟨_, e⟩
    · exact .inr ⟨_, .skpKey x h, e⟩
    · exact .inl ⟨_, e⟩
  | sknp x =>
    rcases execSknp_cases x s with ⟨h, e⟩ | ⟨_, e⟩
    · exact .inr ⟨_, .sknpKey x h, e⟩
    · exact .inl ⟨_, e⟩
  | drw x y n =>
    rcases execDrw_cases x y n s with h | ⟨hn, h, e⟩ | ⟨hn, hx, h, e⟩
    · exact .inl h
    · exact .inr ⟨_, .drwColumn x y hn h, e⟩
    · exact .inr ⟨_, .drwAddress x y hn hx h, e⟩
  | _ => exact .inl ⟨_, rfl⟩

theorem raises_of_exec_fault (h : exec i s = .fault f) : Raises s i f := by
  rcases exec_cases i s with ⟨t, e⟩ | ⟨g, hg, e⟩
  · cases e.symm.trans h
  · cases e.symm.trans h; exact hg

/-- Everything a fault of the engine's step can be: of the fetch, of decode, or of the fetched instruction, in the
state whose `PC` has advanced. -/
theorem engineStep_fault_cases (h : engineStep s = .fault f) :
    (0xFFE < s.pc.toNat ∧ f = .addressOutOfRange s.pc.toNat) ∨
    (∃ w, fetch s = .ok w ∧ decodeWord w = none ∧ f = .invalidOpcode w) ∨
    ∃ i, Fetches s i ∧ Raises (advancePc s) i f := by
  rcases engineStep_cases s with ⟨_, e⟩ | ⟨_, hpc, e⟩ | ⟨w, _, hf, hd, e⟩ | ⟨w, i, hm, hf, hd, e⟩
  · cases e.symm.trans h
  · cases e.symm.trans h; exact .inl ⟨hpc, rfl⟩
  · cases e.symm.trans h; exact .inr (.inl ⟨w, hf, hd, rfl⟩)
  · exact .inr (.inr ⟨i, ⟨hm, w, hf, hd⟩, raises_of_exec_fault (e.symm.trans h)⟩)

/-! ### A fault leaves the state, and nothing is refused (R131, R148) -/

theorem act_step_of_fault (h : engineStep s = .fault f) : act .step s = (s, .fault f) := by
  simp [act, h]

/-- An action that leaves the state as it was answers the same every time it is repeated. -/
theorem runActions_replicate (h : act a s = (s, r)) (n : Nat) :
    runActions (List.replicate n a) s = (s, List.replicate n r) := by
  induction n with
  | zero => rfl
  | succ n ih => simp [List.replicate_succ, runActions, h, ih]

theorem exec_ne_refused (i : Instr) (s : State) (r : Refusal) : exec i s ≠ .refused r := by
  intro h
  rcases exec_cases i s with ⟨t, e⟩ | ⟨f, _, e⟩
  · cases e.symm.trans h
  · cases e.symm.trans h

theorem engineStep_ne_refused (s : State) (r : Refusal) : engineStep s ≠ .refused r := by
  intro h
  rcases engineStep_cases s with ⟨_, e⟩ | ⟨_, _, e⟩ | ⟨w, _, _, _, e⟩ | ⟨w, i, _, _, _, e⟩
  · cases e.symm.trans h
  · cases e.symm.trans h
  · cases e.symm.trans h
  · exact exec_ne_refused i _ r (e.symm.trans h)

/-- Only the engine could pass a refusal on, and it has none. -/
theorem outcomeOf_act_ne_refused (a : Action) (s : State) (r : Refusal) : outcomeOf (act a s) ≠ .refused r := by
  cases a with
  | step => rw [outcomeOf_act_step]; exact engineStep_ne_refused s r
  | loadProgram bs =>
    rcases loadProgram_cases bs s with ⟨_, e⟩ | ⟨_, e⟩
    · simp [act, e, outcomeOf]
    · simp [act, e, outcomeOf]
  | notifyKeyPressed k =>
    rcases notifyKeyPressed_cases k s with ⟨_, e⟩ | ⟨_, _, e⟩ | ⟨w, _, _, e⟩
    · simp [act, e, outcomeOf]
    · simp [act, e, outcomeOf, raise]
    · simp [act, e, outcomeOf]
  | _ => nofun

/-! ### Notifications (R145) -/

/-- The X field of a word is its bits 11..8 (30_encoding.md R51). -/
theorem opX_val (w : Word) : (opX w).val = w.toNat / 256 % 16 := by
  simp [opX, Nat.shiftRight_eq_div_pow]

theorem act_notifyKeyPressed_of_running (k : Key) (h : s.mode = .running) : act (.notifyKeyPressed k) s = (s, .ok) := by
  simp [act, notifyKeyPressed, h]

/-- While waiting, the invariant keeps the pending FX0A readable (R145). -/
theorem WaitInv.pendingWord_ok (h : WaitInv s) (hm : s.mode = .waitingForKey) : ∃ w, pendingWord s = .ok w := by
  have := inRange_iff.mp (h hm)
  exact ⟨_, readWord_in (by omega)⟩

/-! ### Ticks (R150) -/

/-- Subtraction on naturals stops at 0, as the countdown does. -/
theorem countDown_toNat (b : Byte) : (countDown b).toNat = b.toNat - 1 := by
  unfold countDown
  split
  next h => subst h; rfl
  next h => bv_omega

end Exceptions

/-! ## The obligations of 60_exceptions.md -/

/-- Settles O9: the faulting step is an action that leaves the state as it was. -/
theorem faultingStepChangesNothingAndRecurs : Obligations.FaultingStepChangesNothingAndRecurs :=
  fun n _ _ h => runActions_replicate (act_step_of_fault h) n

/-- Settles O10: a fault is of the fetch, of decode, or of a row of the table; the invariant rules out the call whose push
lies above memory. -/
theorem everyFaultHasItsCondition : Obligations.EveryFaultHasItsCondition := by
  intro s f ⟨_, ⟨_, _, hbase⟩, _⟩ hfault
  rcases engineStep_fault_cases hfault with ⟨hpc, rfl⟩ | ⟨w, hf, hd, rfl⟩ | ⟨i, hi, hr⟩
  · exact ⟨rfl, hpc, .inl ⟨rfl, hpc⟩⟩
  · exact ⟨rfl, hf, hd⟩
  · -- the table reads no `PC`, so its conditions in the advanced state are those of `s`
    cases hr with
    | retUnderflow h => exact ⟨rfl, hi, rfl, h⟩
    | callOverflow nnn h => exact ⟨rfl, ⟨nnn, hi⟩, rfl, h⟩
    | callAddress nnn h => exact absurd (h.trans_le hbase) (by decide)
    | fntDigit x h => exact ⟨rfl, x, hi, rfl, h⟩
    | bcdAddress x h =>
      exact ⟨rfl, by omega, .inr (.inl ⟨rfl, x, .inl ⟨hi, Nat.lt_of_succ_lt_succ h⟩⟩)⟩
    | strAddress x h => exact ⟨rfl, by omega, .inr (.inl ⟨rfl, x, .inr ⟨.inl hi, h⟩⟩)⟩
    | ldrAddress x h => exact ⟨rfl, by omega, .inr (.inl ⟨rfl, x, .inr ⟨.inr hi, h⟩⟩)⟩
    | skpKey x h => exact ⟨rfl, x, .inl hi, rfl, h⟩
    | sknpKey x h => exact ⟨rfl, x, .inr hi, rfl, h⟩
    | drwColumn x y hn h => exact ⟨rfl, x, y, _, hi, hn, rfl, h⟩
    | drwAddress x y hn hx h =>
      exact ⟨rfl, h.le, .inr (.inr ⟨rfl, h, x, y, _, hi, hn, Nat.le_of_lt_succ hx⟩)⟩

/-- Settles O11: what does not answer a next state has a row in the fault table. -/
theorem theOtherInstructionsNeverFault : Obligations.TheOtherInstructionsNeverFault := by
  intro i s hi
  rcases exec_cases i s with h | ⟨f, _, e⟩
  · exact h
  · cases hi.symm.trans (mayFault_of_exec_fault e)

/-- Settles O12: an instruction answers a next state or a fault, and a step is some agent's action. -/
theorem noStepIsRefused : Obligations.NoStepIsRefused :=
  ⟨exec_ne_refused, fun _ => outcomeOf_act_ne_refused _ _⟩

/-- Settles O49: bits 11..8 of the pending word are its X field, which names the register that is written. -/
theorem notificationActsOnlyWhileWaiting : Obligations.NotificationActsOnlyWhileWaiting := by
  refine fun k s => ⟨act_notifyKeyPressed_of_running k, fun w hm hw => ?_, fun ⟨_, _, hwait⟩ => hwait.pendingWord_ok⟩
  refine ⟨_, act_notifyKeyPressed_of_pending k hm hw, fun r hr => ?_, rfl⟩
  obtain rfl : r = opX w := Fin.ext (hr.trans (opX_val w).symm)
  exact ⟨(congrArg BitVec.toNat (reg_notified_self ..)).trans (keyByte_toNat k), (keepsData_notified ..).keeps⟩

/-- Settles O51: both timers count down by the same rule, and the frame of a tick is its own timer. -/
theorem ticksCountDownAndStopAtZero : Obligations.TicksCountDownAndStopAtZero := fun s =>
  ⟨⟨_, rfl, countDown_toNat s.dt, (act_keepsData .tickDelay s).keeps⟩,
    ⟨_, rfl, countDown_toNat s.st, (act_keepsData .tickSound s).keeps⟩⟩

end Sys2Proof.Machine

/-! ## Reset, loading, the end of a program (70_reset_and_hazards.md) -/

namespace Sys2Proof.Machine

section ResetAndHazards

variable {bs : List Byte} {nnn : Addr12} {s t : State}

/-! ### The first step after `init` (R161) -/

/-- After `init` memory and `PC` are those of the reset state, whose two bytes at 0x200 are 0, and the word they make is in
no row. -/
theorem engineStep_init (s : State) : engineStep (init s) = .fault (.invalidOpcode 0x0000#16) := by
  have hfetch : fetch (init s) = .ok 0x0000#16 := calc
    fetch (init s) = fetch .reset := readWord_congr (init_mem s) _
    _ = .ok 0x0000#16 := by decide
  exact engineStep_of_invalid (init_mode s) hfetch (by decide)

/-! ### Loading a program (R162) -/

theorem act_loadProgram_of_fits (h : bs.length ≤ Config.maxProgramBytes) :
    act (.loadProgram bs) s = ({ s with mem := s.mem.setBytes Config.programLoadAddr bs }, .ok) := by
  rcases loadProgram_cases bs s with ⟨hlarge, _⟩ | ⟨_, e⟩
  · exact absurd hlarge (Nat.not_lt.mpr h)
  · simp only [act, e]

theorem act_loadProgram_of_tooLarge (h : Config.maxProgramBytes < bs.length) :
    act (.loadProgram bs) s = (s, .loadError .tooLarge) := by
  rcases loadProgram_cases bs s with ⟨_, e⟩ | ⟨hle, _⟩
  · simp only [act, e]
  · exact absurd h (Nat.not_lt.mpr hle)

/-! ### A jump to itself (R164) -/

theorem act_step_of_next (h : engineStep s = .next t) : act .step s = (t, .ok) := by
  simp only [act, h]

/-- A fetched jump to the address it stands at puts `PC` back where the step's increment took it from. -/
theorem engineStep_of_jump_to_self (hf : Fetches s (.jp nnn)) (hpc : nnn.toNat = s.pc.toNat) :
    engineStep s = .next s := by
  have htarget : addrLiteral nnn = s.pc := BitVec.eq_of_toNat_eq ((addrLiteral_toNat nnn).trans hpc)
  calc engineStep s = .next (jumpTo (advancePc s) (addrLiteral nnn)) := engineStep_of_fetches hf
    _ = .next s := by rw [htarget]; rfl

end ResetAndHazards

/-! ## The obligations of 70_reset_and_hazards.md -/

/-- Settles O54: all but the keys and the model's own fields is that of the reset state, whose values O53 gives. -/
theorem initResetsFromAnyState : Obligations.InitResetsFromAnyState := by
  intro s
  obtain ⟨hreg, -, -, -, -, -, -, hcell, -⟩ := resetHasTheGivenValues
  exact ⟨init s, rfl, hreg, rfl, rfl, rfl, rfl, readByte_congr (init_mem s), hcell, rfl, rfl, init_keys s,
    engineStep_init s⟩

/-- Settles O55: a program that is not too large fits in memory, and is a row of writes from 0x200 on. -/
theorem loadProgramCopiesTheBytesOrNothing : Obligations.LoadProgramCopiesTheBytesOrNothing := by
  refine fun bytes s hw => ⟨fun hle => ?_, act_loadProgram_of_tooLarge⟩
  have hfit : Config.programLoadAddr + bytes.length ≤ Config.memBytes :=
    (Nat.add_le_add_left hle _).trans maxProgramBytes_fits
  exact ⟨_, act_loadProgram_of_fits hle, fun k hk => readByte_setBytes hw hfit (List.getElem?_eq_getElem hk),
    memSameOutside_setBytes hw hfit, (keepsData_mem s _).keeps⟩

/-- Settles O56: the step answers Ok and the very same state, and so does every repetition of it. -/
theorem aJumpToItselfChangesNothing : Obligations.AJumpToItselfChangesNothing :=
  fun n _ ⟨_, hf, hpc⟩ => runActions_replicate (act_step_of_next (engineStep_of_jump_to_self hf hpc)) n

end Sys2Proof.Machine
